-- ==== Sys2Proof/Word.lean ====
section
/-! DEFINITION. The word types (R7, R9): 32-bit words, 8-bit bytes, the 64-bit length. Every value of the spec is
unsigned and every sum on words is modulo 2^32 (R9, R114), which is what `BitVec` addition does. -/

namespace Sys2Proof

/-- A byte of the message, of the block buffer or of the digest. -/
abbrev Byte := BitVec 8

/-- A 32-bit register or command word (R2, R7, R8). -/
abbrev Word := BitVec 32

/-- The 64-bit message length in bits (R7, R27). -/
abbrev Length := BitVec 64

/-- An offset in the 256-byte register window: the block decodes address bits [7:0] (R50). -/
abbrev Offset := BitVec 8

end Sys2Proof
end

