-- ==== Sys2Proof/Syntax.lean ====
section
/-! DEFINITION. The command set (R72, spec/opcode_table.json): one constructor per row of the opcode table. The block
has no other instructions; an illegal command word is no instruction (R73, R74). -/

namespace Sys2Proof

/-- A legal command, as `DECODE` returns it (R73). -/
inductive Instr where
  /-- INIT (R143): start a new digest computation. -/
  | init
  /-- ABSORB.c (R144): append `c` bytes of DATA to the message; `c = N + 1` (R71). -/
  | absorb (c : Nat)
  /-- ABSORB_CP (R174): append the UTF-16LE encoding of the code point in DATA. -/
  | absorbCp
  /-- FINAL (R145): pad, compress the last block or blocks, mark the digest complete. -/
  | final
  deriving DecidableEq, Repr

end Sys2Proof
end

