-- ==== Sys2Proof/WellFormed.lean ====
section
/-! DEFINITION. Which instruction terms stand for a command of the block: the count of an ABSORB is 1 to 4 (R71, R75:
the assembler refuses `c` outside 1..4). The other commands have no operand field. -/

namespace Sys2Proof

/-- The well-formedness check of a command (R71, R72, R75). -/
def Instr.wellFormed : Instr → Bool
  | .init => true
  | .absorb c => decide (1 ≤ c ∧ c ≤ 4)
  | .absorbCp => true
  | .final => true

end Sys2Proof
end

