-- ==== Sys2Proof/Decode.lean ====
section
/-! DEFINITION. DECODE, a total function of the 32-bit command word (R70 to R74), and the encoder beside it. A
word that is not one of the seven legal ones is rejected under the name of the first of R201's causes that it has.
The command word is written to CMD as one 32-bit value and the spec names no byte lanes (R55), so decoding
starts from the word, not from bytes. -/

namespace Sys2Proof

/-- Why a command word is illegal: the three causes of R201. All three have the same effect, ErrCmd; the names
are the model's (log 12). -/
inductive Illegal where
  /-- RSV, bits 31:6, is not 0. -/
  | reservedBits
  /-- OP is not one of 0x1, 0x2, 0x3, 0x4. -/
  | unknownOperation
  /-- OP is 0x1, 0x3 or 0x4 and N is not 0. -/
  | countNotZero
  deriving DecidableEq, Repr

/-- OP, bits 3:0 of a command word (R70). -/
def opField (w : Word) : BitVec 4 := w.extractLsb' 0 4

/-- N, bits 5:4 of a command word: the byte count minus one, for ABSORB only (R70). -/
def countField (w : Word) : BitVec 2 := w.extractLsb' 4 2

/-- RSV, bits 31:6 of a command word (R70). -/
def reservedField (w : Word) : BitVec 26 := w.extractLsb' 6 26

/-- A command that has no count: legal only with N = 0 (R73, R74). -/
def withoutCount (i : Instr) (w : Word) : Except Illegal Instr :=
  if countField w = 0 then .ok i else .error .countNotZero

/-- `DECODE` (R73), total on every word. -/
def decode (w : Word) : Except Illegal Instr :=
  if reservedField w ≠ 0 then .error .reservedBits
  else if opField w = 0x1 then withoutCount .init w
  else if opField w = 0x2 then .ok (.absorb ((countField w).toNat + 1))
  else if opField w = 0x3 then withoutCount .absorbCp w
  else if opField w = 0x4 then withoutCount .final w
  else .error .unknownOperation

/-- The command word of an instruction, from the opcode map (R72) and the assembler's table (R75). -/
def encode : Instr → Word
  | .init => 0x00000001
  | .absorb c => 0x00000002 ||| (BitVec.ofNat 32 (c - 1) <<< 4)
  | .absorbCp => 0x00000003
  | .final => 0x00000004

/-- The command word of `nbits` bits numbered as spec/opcode_table.json numbers them; the bits above are 0. -/
def tableWord (nbits w : Nat) : Word := BitVec.ofNat 32 (w % 2 ^ nbits)

/-- What `decode` reads from an instruction of `nbits` bits whose bits are `w` (every command has 32 bits, R70). -/
def decodeTableWord (nbits w : Nat) : Option Instr :=
  if w % 2 ^ nbits < 2 ^ 32 then (decode (tableWord nbits w)).toOption else none

end Sys2Proof
end

