-- ==== Sys2Proof/Machine/Bits.lean ====
section
/-! DEFINITION. The bit-field, rotation and byte-order primitives of the spec's notation (R9 to R11). -/

namespace Sys2Proof.Machine

/-- `ROTL32(v, s)` (R10). The block uses it with s in 3, 5, 7, 9, 11, 13, 15, 19 only (R114). -/
def rotl32 (v : Word) (s : Nat) : Word := (v <<< s) ||| (v >>> (32 - s))

/-- `BYTE(v, m) = v[8m+7:8m]` (R11), on a value of any width. -/
def byteOf {n : Nat} (v : BitVec n) (m : Nat) : Byte := v.extractLsb' (8 * m) 8

/-- `LE32(b0, b1, b2, b3) = b3 ++ b2 ++ b1 ++ b0` (R11): the first byte is the least significant. -/
def le32 (b0 b1 b2 b3 : Byte) : Word := b3 ++ b2 ++ b1 ++ b0

end Sys2Proof.Machine
end

