-- ==== Sys2Proof/Config.lean ====
section
/-! DEFINITION. What the platform fixes about the block and the spec leaves open (R8): the base address of each
instance (`BASE`) and how many instances there are (`INSTANCES`). Both are arguments of the model, carried as plain
data by `Machine/Platform.lean`; no meaning of a command reads them. The latencies `LAT_*` are open too, no rule
depends on them and the model has no time (R237), so they have no field. The free values stand here too: what BUF and W
hold where the spec calls it unspecified (R24, R25, R143; log 1). -/

namespace Sys2Proof

/-- The platform's parameters (R8): one base address for each instance; `INSTANCES` is the length of the list. -/
structure Config where
  bases : List Nat
  deriving DecidableEq, Repr

/-- The size of one register window (R8, R50). -/
def windowBytes : Nat := 256

/-- The platform's parameters are legal: at least one instance, every base a multiple of 256, no two instances at one
base (R8, R50, R214). -/
def Config.legal (c : Config) : Bool :=
  !c.bases.isEmpty && c.bases.all (fun b => b % windowBytes == 0) && decide c.bases.Nodup

/-- `INSTANCES` (R8, R214). -/
def Config.instances (c : Config) : Nat := c.bases.length

/-- Free value: byte `i` of BUF after unspecification number `draw` (R25, I-2). It has no body: nothing says what it is. -/
opaque Config.freeByte (draw i : Nat) : Byte

/-- Free value: working register `i` after unspecification number `draw` (R24, I-3). It has no body. -/
opaque Config.freeWord (draw i : Nat) : Word

end Sys2Proof
end

