-- ==== Sys2Proof/Machine/State.lean ====
section
/-! DEFINITION. The state of one instance of the block (R20 to R33, R214), its host port, and the machine right after
reset (R230). Plain data; the field names are the spec's. The last three fields are the model's own, not the block's:
the accesses the host has issued and the block has not yet performed, the values its reads have returned, and the
counter that free values are drawn by. -/

namespace Sys2Proof.Machine

/-- Four 32-bit words A, B, C, D: the state accumulator S (R20) or the working registers W (R24). -/
structure Quad where
  a : Word
  b : Word
  c : Word
  d : Word
  deriving DecidableEq, Repr

/-- One thing that reaches the block at its host port: an access at a byte offset of the window, of `n` bytes (R12,
R50 to R52), or the platform's reset, which falls between two accesses (R230, R232). -/
inductive Event where
  /-- `MemRead(BASE + off, n)`. -/
  | read (off : Offset) (n : Nat)
  /-- `MemWrite(BASE + off, n, v)`; only accesses with `n = 4` are admitted, so `v` is a word. -/
  | write (off : Offset) (n : Nat) (v : Word)
  /-- The platform asserts reset. -/
  | reset
  deriving DecidableEq, Repr

/-- The error conditions (R200 to R203); each has its own sticky flag. -/
inductive ErrorKind where
  /-- `ErrCmd`: an illegal command word (R201). -/
  | cmd
  /-- `ErrSeq`: ABSORB, ABSORB_CP or FINAL while DONE = 1 (R202). -/
  | seq
  /-- `ErrEnc`: a rejected code point (R203). -/
  | enc
  deriving DecidableEq, Repr

/-- One instance of the block, between two host accesses. -/
structure State where
  /-- The state accumulator S[0..3] (R20). -/
  S : Quad
  /-- The working registers W[0..3] (R24); no rule reads them between accesses. -/
  W : Quad
  /-- The block buffer BUF[0..63] (R25). -/
  BUF : Vector Byte 64
  /-- The number of bytes in BUF, 0 to 63 between host accesses (R26). -/
  FILL : Fin 64
  /-- The message length in bits, modulo 2^64 (R27). -/
  LEN : Length
  /-- FINAL has completed (R29). -/
  DONE : Bool
  /-- Sticky: an illegal command word was written (R29, R201). -/
  ERR_CMD : Bool
  /-- Sticky: ABSORB_CP rejected a code point (R29, R203). -/
  ERR_ENC : Bool
  /-- Sticky: ABSORB, ABSORB_CP or FINAL came while DONE = 1 (R29, R202). -/
  ERR_SEQ : Bool
  /-- The operand register (R30). -/
  DATA : Word
  /-- MODEL: what the host (or the platform) does next, in issue order (R59); the block performs the head. -/
  pending : List Event
  /-- MODEL: the values returned by the host's reads so far, oldest first (R75: the program's result). -/
  observed : List Word
  /-- MODEL: how often BUF and W were left unspecified; the next free values are those of this number (log 1). -/
  draw : Nat
  deriving DecidableEq, Repr

/-- There is no fault: the block never stalls the host, never signals a bus error and never transfers control; its
errors are STATUS flags (R200, R209, R210). So this type has no constructor. -/
inductive Fault where
  deriving DecidableEq, Repr

/-- Why the model gives something no step. -/
inductive Refusal where
  /-- Raised by `exec` for an instruction that has no meaning yet; no arm of this model uses it. Safe. -/
  | notModelled (mnemonic : String)
  /-- Raised by `perform` for an access that is not 32 bits wide and 4-byte aligned: "The model refuses it: the host
  access has no meaning and no step, and nothing in the block changes" (R51, I-7). Safe. -/
  | accessNotAdmitted (off : Offset) (n : Nat)
  /-- Raised by `Platform.step` for an address in no instance's window: what lies outside is the platform's (R64).
  Safe. -/
  | outsideEveryWindow (addr : Nat)
  deriving DecidableEq, Repr

/-- The initial value of the digest state (R21). -/
def Quad.initial : Quad := ⟨0x67452301, 0xEFCDAB89, 0x98BADCFE, 0x10325476⟩

/-- The state after reset (R230). BUF and W are unspecified there and nothing reads them before they are written; the
model's value for both is 0 (DESIGN CHOICE, log 2, unsafe in form). No event is pending and none was read (log 3), and no
free value was drawn (log 1). -/
def State.reset : State where
  S := Quad.initial
  W := ⟨0, 0, 0, 0⟩
  BUF := Vector.replicate 64 0
  FILL := 0
  LEN := 0
  DONE := false
  ERR_CMD := false
  ERR_ENC := false
  ERR_SEQ := false
  DATA := 0
  pending := []
  observed := []
  draw := 0

end Sys2Proof.Machine
end

