-- ==== Sys2Proof/Machine/Compress.lean ====
section
/-! DEFINITION. The block mixer and the state accumulator (R100 to R116): F, G, H, the step, the 48 rows, COMPRESS.
COMPRESS is one function here, with no step number held between accesses (R28). -/

namespace Sys2Proof.Machine

/-- `W[t]`, `S[t]` for t in 0..3: A is 0, B is 1, C is 2, D is 3. -/
def Quad.get (q : Quad) (t : Fin 4) : Word :=
  match t with
  | 0 => q.a
  | 1 => q.b
  | 2 => q.c
  | 3 => q.d

/-- `W[t] <- v`. -/
def Quad.set (q : Quad) (t : Fin 4) (v : Word) : Quad :=
  match t with
  | 0 => { q with a := v }
  | 1 => { q with b := v }
  | 2 => { q with c := v }
  | 3 => { q with d := v }

/-- `(S[j] + W[j]) mod 2^32` for j in 0..3 (R112). -/
def Quad.add (p q : Quad) : Quad := ⟨p.a + q.a, p.b + q.b, p.c + q.c, p.d + q.d⟩

/-- The round-1 function (R102). -/
def fnF (x y z : Word) : Word := (x &&& y) ||| (~~~x &&& z)

/-- The round-2 function (R103). -/
def fnG (x y z : Word) : Word := (x &&& y) ||| (x &&& z) ||| (y &&& z)

/-- The round-3 function (R104). -/
def fnH (x y z : Word) : Word := x ^^^ y ^^^ z

/-- The function of a round (R105). -/
inductive RoundFn where
  | F
  | G
  | H
  deriving DecidableEq, Repr

/-- The value of a round's function. -/
def RoundFn.apply : RoundFn → Word → Word → Word → Word
  | .F => fnF
  | .G => fnG
  | .H => fnH

/-- One row of the step table (R111): target, function, word index, rotation amount, constant. -/
structure StepRow where
  t : Fin 4
  fn : RoundFn
  k : Fin 16
  s : Nat
  K : Word
  deriving DecidableEq, Repr

/-- The target of step i of a round (R107). -/
def stepTarget (i : Nat) : Fin 4 := Fin.ofNat 4 (4 - i % 4)

/-- The round-3 word order P3 (R110). -/
def wordOrder3 : List (Fin 16) := [0, 8, 4, 12, 2, 10, 6, 14, 1, 9, 5, 13, 3, 11, 7, 15]

/-- Step i of round 1 (R108). -/
def round1 (i : Nat) : StepRow := ⟨stepTarget i, RoundFn.F, Fin.ofNat 16 i, [3, 7, 11, 19].getD (i % 4) 0, 0x00000000⟩

/-- Step i of round 2 (R109). -/
def round2 (i : Nat) : StepRow :=
  ⟨stepTarget i, RoundFn.G, Fin.ofNat 16 (i % 4 * 4 + i / 4), [3, 5, 9, 13].getD (i % 4) 0, 0x5A827999⟩

/-- Step i of round 3 (R110). -/
def round3 (i : Nat) : StepRow :=
  ⟨stepTarget i, RoundFn.H, wordOrder3.getD i 0, [3, 9, 11, 15].getD (i % 4) 0, 0x6ED9EBA1⟩

/-- Row n of the step table, n in 0..47 (R111). -/
def stepRow (n : Nat) : StepRow :=
  if n < 16 then round1 n else if n < 32 then round2 (n - 16) else round3 (n - 32)

/-- `STEP(t, fn, k, s, K)` (R105) with the word `x = X[k]`; the arguments of fn are in cyclic order after the target
(R106). -/
def mixStep (r : StepRow) (x : Word) (w : Quad) : Quad :=
  w.set r.t (rotl32 (w.get r.t + r.fn.apply (w.get (r.t + 1)) (w.get (r.t + 2)) (w.get (r.t + 3)) + x + r.K) r.s)

/-- The little-endian words of a byte sequence, four bytes a word (R100). -/
def wordsOf : List Byte → List Word
  | b0 :: b1 :: b2 :: b3 :: rest => le32 b0 b1 b2 b3 :: wordsOf rest
  | _ => []

/-- The word view X[0..15] of a block: `X[j] = LE32(BUF[4j], BUF[4j+1], BUF[4j+2], BUF[4j+3])` (R100). -/
def blockWords (blk : Vector Byte 64) : List Word := wordsOf blk.toList

/-- The 48 steps in ascending n (R111), each with the word `X[k]` of its row. Round 1 takes the words in their order
(R108: k = i), so its steps follow the list `X` itself: on a block whose bytes are unknown nothing here unfolds. -/
def scheduledSteps (X : List Word) : List (StepRow × Word) :=
  X.zipIdx.map (fun p => (stepRow p.2, p.1)) ++
    (List.range 32).map (fun m => (stepRow (16 + m), X.getD (stepRow (16 + m)).k.val 0))

/-- The steps of a schedule from the working registers `w`, in order. -/
def mixSteps (steps : List (StepRow × Word)) (w : Quad) : Quad := steps.foldl (fun w p => mixStep p.1 p.2 w) w

/-- The working registers after step 47, seeded from `S` (R101, R113). -/
def mixBlock (S : Quad) (blk : Vector Byte 64) : Quad := mixSteps (scheduledSteps (blockWords blk)) S

/-- The state accumulator after one block (R112, R113). -/
def compressBlock (S : Quad) (blk : Vector Byte 64) : Quad := S.add (mixBlock S blk)

/-- Write S and W, and nothing else (R113). -/
def setAccumulator (S W : Quad) (s : State) : State := { s with S := S, W := W }

/-- `COMPRESS()` (R113): it writes S and W only. -/
def compress (s : State) : State := setAccumulator (compressBlock s.S s.BUF) (mixBlock s.S s.BUF) s

end Sys2Proof.Machine
end

