-- ==== Sys2Proof/Machine/Flags.lean ====
section
/-! DEFINITION. The four flags (R29): setting the flag of an error condition (R200 to R203), reading one, and STATUS
(R36). No arithmetic result sets a flag (R29), so there is no other flag computation. -/

namespace Sys2Proof.Machine

/-- The sticky flag of an error condition. -/
def errorFlag (k : ErrorKind) (s : State) : Bool :=
  match k with
  | .cmd => s.ERR_CMD
  | .seq => s.ERR_SEQ
  | .enc => s.ERR_ENC

/-- `raise ErrX()`: set the flag of the condition and change nothing else (R12, R200). This is the whole of the block's
error mechanism: there is no trap entry, no saved state and no return (R210). -/
def raiseError (k : ErrorKind) (s : State) : State :=
  match k with
  | .cmd => { s with ERR_CMD := true }
  | .seq => { s with ERR_SEQ := true }
  | .enc => { s with ERR_ENC := true }

/-- `STATUS = zext_32(FILL[5:0] ++ 0b0000 ++ ERR_SEQ ++ ERR_ENC ++ ERR_CMD ++ DONE)` (R36). -/
def statusWord (s : State) : Word :=
  (BitVec.ofNat 6 s.FILL.val ++ 0#4 ++ BitVec.ofBool s.ERR_SEQ ++ BitVec.ofBool s.ERR_ENC ++
    BitVec.ofBool s.ERR_CMD ++ BitVec.ofBool s.DONE).setWidth 32

/-- `STATUS[3:0] = 0b0001`: DONE and no error flag, when the host may take the digest for that of the message it meant
(R207). -/
def digestTrusted (s : State) : Bool := (statusWord s).extractLsb' 0 4 == 0b0001#4

end Sys2Proof.Machine
end

