-- ==== Sys2Proof/Machine/Operands.lean ====
section
/-! DEFINITION. What the commands take from DATA (R71): the byte group of ABSORB and the code point of ABSORB_CP with
its UTF-16LE encoding (R170 to R173), and the bytes of the length field (R145). -/

namespace Sys2Proof.Machine

/-- The operand bytes of `ABSORB.c`: `BYTE(DATA, 0)` to `BYTE(DATA, c - 1)`, in ascending order (R71, R57). -/
def absorbBytes (c : Nat) (data : Word) : List Byte := (List.range c).map (byteOf data)

/-- A valid code point: `cp <= 0xD7FF` or `0xE000 <= cp <= 0x10FFFF` (R170). -/
def validCodePoint (cp : Word) : Bool := decide (cp ≤ 0xD7FF ∨ (0xE000 ≤ cp ∧ cp ≤ 0x10FFFF))

/-- The high and low surrogate units of a supplementary code point (R172). -/
def surrogatePair (cp : Word) : BitVec 16 × BitVec 16 :=
  let v := cp - 0x10000
  (0xD800 + (v.extractLsb' 10 10).setWidth 16, 0xDC00 + (v.extractLsb' 0 10).setWidth 16)

/-- The two bytes of a 16-bit unit, low byte first (R56, R171). -/
def unitBytes (u : BitVec 16) : List Byte := [byteOf u 0, byteOf u 1]

/-- The message bytes of a valid code point: one unit up to 0xFFFF (R171), a surrogate pair above (R172). There is no
byte-order mark (R173). -/
def utf16leBytes (cp : Word) : List Byte :=
  if cp ≤ 0xFFFF then unitBytes (cp.extractLsb' 0 16)
  else unitBytes (surrogatePair cp).1 ++ unitBytes (surrogatePair cp).2

/-- The bytes ABSORB_CP appends for the code point `cp`; none where the encoder rejects it (R170). -/
def encodeCodePoint (cp : Word) : Option (List Byte) :=
  if validCodePoint cp then some (utf16leBytes cp) else none

/-- The 8-byte little-endian length field of the padding (R145 step 4, R56). -/
def lengthBytes (L : Length) : List Byte := (List.range 8).map (byteOf L)

end Sys2Proof.Machine
end

