-- ==== Sys2Proof/Machine/Ops.lean ====
section
/-! DEFINITION. The operations the commands share: the byte path into the block buffer (R140, R141), the padding loop
(R145), the start of a computation (R143), and the guard of the commands that need DONE = 0 (R202). The block has no
trap entry and no trap return (R200, R210): raising an error is `raiseError` in Machine/Flags.lean, the one shared
operation for it, and recovery is INIT. -/

namespace Sys2Proof.Machine

/-- `BUF[FILL] <- b`. -/
def storeByte (b : Byte) (s : State) : State := { s with BUF := s.BUF.set s.FILL.val b s.FILL.isLt }

/-- `FILL <- f`. -/
def setFill (f : Fin 64) (s : State) : State := { s with FILL := f }

/-- The free bytes BUF holds after unspecification number `n` (R25). -/
def unspecifiedBlock (n : Nat) : Vector Byte 64 := ⟨((List.range 64).map (Config.freeByte n)).toArray, by simp⟩

/-- The free words W holds after unspecification number `n` (R24). -/
def unspecifiedQuad (n : Nat) : Quad :=
  ⟨Config.freeWord n 0, Config.freeWord n 1, Config.freeWord n 2, Config.freeWord n 3⟩

/-- After a compression and after INIT no byte of BUF is one of the current block: BUF and W hold unspecified values from
here on (R24, R25, R143), fresh free values each time (log 1). -/
def leaveScratch (s : State) : State :=
  { s with BUF := unspecifiedBlock s.draw, W := unspecifiedQuad s.draw, draw := s.draw + 1 }

/-- `APPEND_RAW(b)` (R140): the block's 64th byte compresses it at once, so FILL is at most 63 afterwards (R26). COMPRESS
itself writes S and W only (R113); what BUF and W hold from then on is unspecified (R24, R25). -/
def appendRaw (b : Byte) (s : State) : State :=
  if h : s.FILL.val + 1 < 64 then setFill ⟨s.FILL.val + 1, h⟩ (storeByte b s)
  else setFill 0 (leaveScratch (compress (storeByte b s)))

/-- `LEN <- (LEN + 8) mod 2^64`. -/
def addLength (s : State) : State := { s with LEN := s.LEN + 8 }

/-- `APPEND_MSG(b)` (R141): a message byte also advances LEN, modulo 2^64. -/
def appendMsg (b : Byte) (s : State) : State :=
  addLength (appendRaw b s)

/-- `APPEND_RAW` of each byte in order. -/
def appendRaws (bs : List Byte) (s : State) : State := bs.foldl (fun s b => appendRaw b s) s

/-- `APPEND_MSG` of each byte in order (R144, R174). -/
def appendMsgs (bs : List Byte) (s : State) : State := bs.foldl (fun s b => appendMsg b s) s

/-- `while FILL != 56: APPEND_RAW(0x00)`, at most `fuel` times (R145 step 3); 63 suffice from every FILL. -/
def padZeros : Nat → State → State
  | 0, s => s
  | fuel + 1, s => if s.FILL = 56 then s else padZeros fuel (appendRaw 0x00 s)

/-- Steps 1 to 4 of the padding (R145): L is LEN at the start. -/
def padMessage (s : State) : State :=
  appendRaws (lengthBytes s.LEN) (padZeros 64 (appendRaw 0x80 s))

/-- The state elements INIT writes (R143). -/
def startState (s : State) : State :=
  { s with
    S := Quad.initial
    FILL := 0
    LEN := 0
    DONE := false
    ERR_CMD := false
    ERR_ENC := false
    ERR_SEQ := false }

/-- The effect of INIT (R143): the content of BUF and W is unspecified afterwards, and DATA is unchanged. -/
def beginMessage (s : State) : State := leaveScratch (startState s)

/-- A command that is performed only while DONE = 0; otherwise it raises ErrSeq and does nothing else (R202). -/
def whileAccepting (act : State → State) (s : State) : State :=
  if s.DONE then raiseError .seq s else act s

/-- `DONE <- 1` (R145). -/
def setDone (s : State) : State := { s with DONE := true }

/-- The platform's reset between two accesses (R230, R232): every element of the block takes its reset value; the host's
remaining accesses, what it has read and the draw counter are not the block's. -/
def hardReset (s : State) : State :=
  { State.reset with pending := s.pending, observed := s.observed, draw := s.draw }

end Sys2Proof.Machine
end

