-- ==== Sys2Proof/Machine/Adapter.lean ====
section
/-! DEFINITION. The NTLM adapter: the meaning of ABSORB_CP (R174) and the hex formatter (R175 to R178), a function of S
with no state of its own. -/

namespace Sys2Proof.Machine

/-- Append the encoding of the code point in DATA, or raise ErrEnc and append nothing (R174, R203). -/
def absorbCodePoint (s : State) : State :=
  match encodeCodePoint s.DATA with
  | some bs => appendMsgs bs s
  | none => raiseError .enc s

/-- ABSORB_CP (R174): DONE is tested before the code point (R204). -/
def execAbsorbCp (s : State) : Host.Outcome State Fault Refusal := .next (whileAccepting absorbCodePoint s)

/-- Digest byte `4i + m = BYTE(S[i], m)`, n in 0..15 (R147, R56). -/
def digestByte (S : Quad) (n : Nat) : Byte := byteOf (S.get (Fin.ofNat 4 (n / 4))) (n % 4)

/-- The 16-byte digest D[0..15] (R147). -/
def digestBytes (S : Quad) : List Byte := (List.range 16).map (digestByte S)

/-- `HEXCHAR(v)` (R175): '0' to '9', 'A' to 'F', in ASCII. -/
def hexChar (v : BitVec 4) : Byte :=
  if v.toNat < 10 then BitVec.ofNat 8 (0x30 + v.toNat) else BitVec.ofNat 8 (0x41 + (v.toNat - 10))

/-- Character T[n] of the hex string, n in 0..31: the high nibble of a digest byte comes first (R176). -/
def hexText (S : Quad) (n : Nat) : Byte :=
  if n % 2 = 0 then hexChar ((digestByte S (n / 2)).extractLsb' 4 4)
  else hexChar ((digestByte S (n / 2)).extractLsb' 0 4)

/-- The 32-character string T[0..31] (R176). -/
def hexString (S : Quad) : List Byte := (List.range 32).map (hexText S)

/-- `HEXj = LE32(T[4j], T[4j+1], T[4j+2], T[4j+3])` (R177). -/
def hexWord (S : Quad) (j : Nat) : Word :=
  le32 (hexText S (4 * j)) (hexText S (4 * j + 1)) (hexText S (4 * j + 2)) (hexText S (4 * j + 3))

end Sys2Proof.Machine
end

