-- ==== Sys2Proof/Machine/Message.lean ====
section
/-! DEFINITION. The meanings of INIT, ABSORB and FINAL (R143 to R145). Each performs everything it triggers in one step
(R54, R149), and none can stop the machine. -/

namespace Sys2Proof.Machine

/-- INIT (R143): legal in every state. -/
def execInit (s : State) : Host.Outcome State Fault Refusal := .next (beginMessage s)

/-- ABSORB.c (R144): append `BYTE(DATA, 0)` to `BYTE(DATA, c - 1)`. -/
def execAbsorb (c : Nat) (s : State) : Host.Outcome State Fault Refusal :=
  .next (whileAccepting (fun s => appendMsgs (absorbBytes c s.DATA) s) s)

/-- FINAL (R145): pad with APPEND_RAW, which leaves LEN alone, and set DONE. -/
def execFinal (s : State) : Host.Outcome State Fault Refusal :=
  .next (whileAccepting (fun s => setDone (padMessage s)) s)

end Sys2Proof.Machine
end

