-- ==== Sys2Proof/Machine/Dispatch.lean ====
section
/-! DEFINITION. One arm per command: its meaning. -/

namespace Sys2Proof.Machine

open Sys2Proof

/-- What performing a legal command does to the block (R34, R72). -/
def exec (i : Instr) (s : State) : Host.Outcome State Fault Refusal :=
  match i with
  | .init => Sys2Proof.Machine.execInit s
  | .absorb c => Sys2Proof.Machine.execAbsorb c s
  | .absorbCp => Sys2Proof.Machine.execAbsorbCp s
  | .final => Sys2Proof.Machine.execFinal s

end Sys2Proof.Machine
end

