-- ==== Sys2Proof/Machine/Access.lean ====
section
/-! DEFINITION. The register window (R34 to R41, R50 to R54, R64): which register an offset holds, what a read of it
returns, what a write to it does, and which accesses are admitted. A write to CMD performs a command. -/

namespace Sys2Proof.Machine

/-- The registers of the window (10_state.md section 7). -/
inductive Reg where
  | cmd
  | data
  | status
  | lenLo
  | lenHi
  | digest (i : Fin 4)
  | hex (j : Fin 8)
  | reserved
  deriving DecidableEq, Repr

/-- The register at an offset of the window (R34 to R41, R64). Only multiples of 4 are ever looked up (R51). -/
def regAt (off : Offset) : Reg :=
  let a := off.toNat
  if a = 0x00 then .cmd
  else if a = 0x04 then .data
  else if a = 0x08 then .status
  else if a = 0x0C then .lenLo
  else if a = 0x10 then .lenHi
  else if 0x20 ≤ a ∧ a ≤ 0x2C then .digest (Fin.ofNat 4 ((a - 0x20) / 4))
  else if 0x30 ≤ a ∧ a ≤ 0x4C then .hex (Fin.ofNat 8 ((a - 0x30) / 4))
  else .reserved

/-- The value a read of a register returns. CMD and the reserved offsets read 0 (R34, R41). -/
def readReg (r : Reg) (s : State) : Word :=
  match r with
  | .cmd => 0
  | .data => s.DATA
  | .status => statusWord s
  | .lenLo => s.LEN.extractLsb' 0 32
  | .lenHi => s.LEN.extractLsb' 32 32
  | .digest i => s.S.get i
  | .hex j => hexWord s.S j.val
  | .reserved => 0

/-- A write of `w` to CMD (R34, R73): a legal word performs its command, an illegal one raises ErrCmd and does nothing
else (R201). DECODE comes before every other test (R204). -/
def performCommand (w : Word) (s : State) : Host.Outcome State Fault Refusal :=
  match decode w with
  | .ok i => exec i s
  | .error _ => .next (raiseError .cmd s)

/-- `DATA <- v` (R35). -/
def setData (v : Word) (s : State) : State := { s with DATA := v }

/-- Hand the value of a read to the host (R75). -/
def recordRead (v : Word) (s : State) : State := { s with observed := s.observed ++ [v] }

/-- The accesses still to come. -/
def setPending (es : List Event) (s : State) : State := { s with pending := es }

/-- A write to a register (R52): CMD performs a command, DATA is set, every other offset ignores the write (R41). -/
def writeReg (r : Reg) (v : Word) (s : State) : Host.Outcome State Fault Refusal :=
  match r with
  | .cmd => performCommand v s
  | .data => .next (setData v s)
  | .status => .next s
  | .lenLo => .next s
  | .lenHi => .next s
  | .digest _ => .next s
  | .hex _ => .next s
  | .reserved => .next s

/-- An access is admitted only if it is 32 bits wide and its offset is a multiple of 4 (R51). -/
def admitted (off : Offset) (n : Nat) : Bool := decide (n = 4 ∧ off.toNat % 4 = 0)

/-- Perform one event at the host port, as one atomic step (R6, R54). A read changes nothing in the block (R53); its
value goes to the host. An access that is not admitted has no step (R51). -/
def perform (e : Event) (s : State) : Host.Outcome State Fault Refusal :=
  match e with
  | .read off n =>
    if admitted off n then .next (recordRead (readReg (regAt off) s) s)
    else .refused (.accessNotAdmitted off n)
  | .write off n v => if admitted off n then writeReg (regAt off) v s else .refused (.accessNotAdmitted off n)
  | .reset => .next (hardReset s)

/-- Take the head of the host's accesses and perform it; with none the block waits (R238): it takes no step of its own
(R6). -/
def performNext (s : State) : Host.Outcome State Fault Refusal :=
  match s.pending with
  | [] => .next s
  | e :: rest => perform e (setPending rest s)

/-- The host's `RegWrite(0x00, w)`, which performs the command `w` (R12, R75). -/
def commandWrite (w : Word) : Event := .write 0x00 4 w

/-- Put the write of a command word at the head of the host's accesses. -/
def State.issueCommand (s : State) (w : Word) : State :=
  setPending (commandWrite w :: s.pending) s

end Sys2Proof.Machine
end

