-- ==== Sys2Proof/Machine/Step.lean ====
section
/-! DEFINITION. One step: the block performs the next host access (R6, R59), and the placing of a command where the next
step takes it. The block fetches nothing (R32, R61): a program is the host's sequence of accesses. -/

namespace Sys2Proof.Machine

/-- One atomic step of the machine (R6, R54, R59). -/
def step (s : State) : Host.Outcome State Fault Refusal := performNext s

/-- `s` with the host's next access a CMD write of the command word (log 4). -/
def State.withFetchWord (s : State) (nbits w : Nat) : State := s.issueCommand (tableWord nbits w)

end Sys2Proof.Machine
end

