-- ==== Sys2Proof/Machine/Assembler.lean ====
section
/-! DEFINITION. The assembler's lines (R75), the pseudo-instructions (R76), and the accesses each line stands for; then
the reading of a line's text. A program is a list of lines; assembled, it is the list of host accesses that
`State.pending` holds. The notation is the spec's own; what the text of a line may look like beyond R75's words is the
model's (log 8). -/

namespace Sys2Proof.Machine

/-- A register name of the assembler, or `@off` (R75). -/
inductive RegName where
  | cmd
  | data
  | status
  | lenLo
  | lenHi
  | digest (i : Fin 4)
  | hex (j : Fin 8)
  | at (off : Nat)
  deriving DecidableEq, Repr

/-- `off(reg)` (10_state.md section 7, R75). -/
def RegName.offset : RegName → Nat
  | .cmd => 0x00
  | .data => 0x04
  | .status => 0x08
  | .lenLo => 0x0C
  | .lenHi => 0x10
  | .digest i => 0x20 + 4 * i.val
  | .hex j => 0x30 + 4 * j.val
  | .at off => off

/-- A line of a program: R75's lines, then R76's pseudo-instructions. -/
inductive AsmLine where
  | init
  | absorb (c : Nat) (imm : Option Nat)
  | absorbCp (imm : Option Nat)
  | final
  | cmd (imm : Nat)
  | wr (reg : RegName) (imm : Nat)
  | rd (reg : RegName)
  | absorbBytes (bs : List Byte)
  | absorbText (cps : List Word)
  | md4 (bs : List Byte)
  | ntlm (cps : List Word)
  | rdDigest
  | rdHex
  deriving DecidableEq, Repr

/-- Why the assembler refuses a line (R75), and why a text is no line. The names are the model's (log 17). -/
inductive AsmError where
  /-- `c` is outside 1..4. -/
  | countOutOfRange
  /-- An immediate does not fit in 32 bits. -/
  | immTooWide
  /-- An offset is not a multiple of 4 or is above 0xFC. -/
  | badOffset
  /-- The text is no line of R75 or R76 (log 8). -/
  | notALine
  deriving DecidableEq, Repr

/-- An immediate, which must fit in 32 bits (R75). -/
def immWord (imm : Nat) : Except AsmError Word :=
  if imm < 2 ^ 32 then .ok (BitVec.ofNat 32 imm) else .error .immTooWide

/-- The offset of a register name: a multiple of 4, at most 0xFC (R75). -/
def RegName.checked (r : RegName) : Except AsmError Offset :=
  if r.offset % 4 = 0 ∧ r.offset ≤ 0xFC then .ok (BitVec.ofNat 8 r.offset) else .error .badOffset

/-- `RegWrite(0x04, imm)`, then the access of the command line (R75); without an immediate, the command alone. -/
def withOperand (imm : Option Nat) (w : Word) : Except AsmError (List Event) :=
  match imm with
  | none => .ok [commandWrite w]
  | some v => (immWord v).map fun d => [.write 0x04 4 d, commandWrite w]

/-- The accesses of `RD DIGEST0` to `RD DIGEST3` (R76). -/
def readDigest : List Event := [.read 0x20 4, .read 0x24 4, .read 0x28 4, .read 0x2C 4]

/-- The accesses of `RD HEX0` to `RD HEX7` (R76). -/
def readHex : List Event :=
  [.read 0x30 4, .read 0x34 4, .read 0x38 4, .read 0x3C 4, .read 0x40 4, .read 0x44 4, .read 0x48 4, .read 0x4C 4]

/-- `ABSORB.c w`: write DATA, then the command (R75). -/
def absorbAccesses (c : Nat) (w : Word) : List Event := [.write 0x04 4 w, commandWrite (encode (.absorb c))]

/-- `ABSORB_CP cp`: write DATA, then the command (R75). -/
def codePointAccesses (cp : Word) : List Event := [.write 0x04 4 cp, commandWrite (encode .absorbCp)]

/-- The expansion of `ABSORB_BYTES`: full groups of four, then one line for the rest (R76). -/
def absorbBytesAccesses : List Byte → List Event
  | b0 :: b1 :: b2 :: b3 :: rest => absorbAccesses 4 (le32 b0 b1 b2 b3) ++ absorbBytesAccesses rest
  | [b0, b1, b2] => absorbAccesses 3 (le32 b0 b1 b2 0)
  | [b0, b1] => absorbAccesses 2 (le32 b0 b1 0 0)
  | [b0] => absorbAccesses 1 (le32 b0 0 0 0)
  | [] => []

/-- The expansion of `ABSORB_TEXT` (R76). -/
def absorbTextAccesses (cps : List Word) : List Event := cps.flatMap codePointAccesses

/-- The host accesses of a line (R75, R76), or why the assembler refuses it. -/
def AsmLine.accesses : AsmLine → Except AsmError (List Event)
  | .init => .ok [commandWrite (encode .init)]
  | .absorb c imm =>
    if 1 ≤ c ∧ c ≤ 4 then withOperand imm (encode (.absorb c)) else .error .countOutOfRange
  | .absorbCp imm => withOperand imm (encode .absorbCp)
  | .final => .ok [commandWrite (encode .final)]
  | .cmd imm => (immWord imm).map fun w => [commandWrite w]
  | .wr reg imm => do
    let off ← reg.checked
    let w ← immWord imm
    return [.write off 4 w]
  | .rd reg => reg.checked.map fun off => [.read off 4]
  | .absorbBytes bs => .ok (absorbBytesAccesses bs)
  | .absorbText cps => .ok (absorbTextAccesses cps)
  | .md4 bs =>
    .ok (commandWrite (encode .init) :: absorbBytesAccesses bs ++ commandWrite (encode .final) :: readDigest)
  | .ntlm cps =>
    .ok (commandWrite (encode .init) :: absorbTextAccesses cps ++
      commandWrite (encode .final) :: .read 0x08 4 :: readHex)
  | .rdDigest => .ok readDigest
  | .rdHex => .ok readHex

/-- The host accesses of a program, in order (R75). -/
def assemble : List AsmLine → Except AsmError (List Event)
  | [] => .ok []
  | l :: ls => do
    let es ← l.accesses
    let rest ← assemble ls
    return es ++ rest

/-- A token of a line's text. -/
inductive Token where
  | word (cs : List Char)
  | comma
  | char (c : Char)
  | text (cs : List Char)
  deriving DecidableEq, Repr

/-- What the reading of a line is inside of. -/
inductive LexMode where
  | between
  | word (reversed : List Char)
  | char
  | charEnd (c : Char)
  | text (reversed : List Char)

/-- The tokens of a line: `;` starts a comment (R75). DESIGN CHOICE (log 8): inside quotes it does not; and no quoted text or
character has an escape, so the first double quote always ends a text and a text holds none. R75 and R76 leave both open. -/
def tokens : List Char → LexMode → Except AsmError (List Token)
  | [], .between => .ok []
  | [], .word r => .ok [.word r.reverse]
  | [], .char => .error .notALine
  | [], .charEnd _ => .error .notALine
  | [], .text _ => .error .notALine
  | c :: cs, .between =>
    if c = ';' then .ok []
    else if c = ' ' ∨ c = '\t' then tokens cs .between
    else if c = ',' then (tokens cs .between).map (Token.comma :: ·)
    else if c = '\'' then tokens cs .char
    else if c = '"' then tokens cs (.text [])
    else tokens cs (.word [c])
  | c :: cs, .word r =>
    if c = ';' then .ok [.word r.reverse]
    else if c = ' ' ∨ c = '\t' then (tokens cs .between).map (Token.word r.reverse :: ·)
    else if c = ',' then (tokens cs .between).map (Token.word r.reverse :: Token.comma :: ·)
    else tokens cs (.word (c :: r))
  | c :: cs, .char => tokens cs (.charEnd c)
  | c :: cs, .charEnd d => if c = '\'' then (tokens cs .between).map (Token.char d :: ·) else .error .notALine
  | c :: cs, .text r =>
    if c = '"' then (tokens cs .between).map (Token.text r.reverse :: ·) else tokens cs (.text (c :: r))

/-- The value of a digit in a base of at most 16. -/
def digitValue (base : Nat) (c : Char) : Option Nat :=
  let v :=
    if '0' ≤ c ∧ c ≤ '9' then c.toNat - '0'.toNat
    else if 'a' ≤ c ∧ c ≤ 'f' then c.toNat - 'a'.toNat + 10
    else if 'A' ≤ c ∧ c ≤ 'F' then c.toNat - 'A'.toNat + 10
    else 16
  if v < base then some v else none

/-- The value of a run of digits, from the value of those before it. -/
def digitsFrom (base : Nat) : List Char → Nat → Option Nat
  | [], v => some v
  | c :: cs, v => (digitValue base c).bind fun d => digitsFrom base cs (v * base + d)

/-- A number, hexadecimal `0x...` or decimal (R75). That leading zeros are allowed and the prefix has a small x is a DESIGN
CHOICE (log 8). -/
def numberOf : List Char → Option Nat
  | [] => none
  | ['0', 'x'] => none
  | '0' :: 'x' :: cs => digitsFrom 16 cs 0
  | cs => digitsFrom 10 cs 0

/-- An immediate: a number, or a character literal, whose value is the character's code point (R75). -/
def immOf : Token → Option Nat
  | .word cs => numberOf cs
  | .char c => some c.toNat
  | .comma => none
  | .text _ => none

/-- A byte operand (R76): an immediate below 256 (DESIGN CHOICE, log 8). -/
def byteOperand (t : Token) : Option Byte :=
  (immOf t).bind fun v => if v < 256 then some (BitVec.ofNat 8 v) else none

/-- `b0, b1, ..., b(k-1)`, after the first byte. -/
def bytesAfter : List Token → Option (List Byte)
  | [] => some []
  | .comma :: t :: rest => (byteOperand t).bind fun b => (bytesAfter rest).map (b :: ·)
  | _ => none

/-- The byte operands of ABSORB_BYTES and MD4; none at all is the case k = 0 (R76). -/
def bytesOf : List Token → Option (List Byte)
  | [] => some []
  | t :: rest => (byteOperand t).bind fun b => (bytesAfter rest).map (b :: ·)

/-- A register name (R75). That the offset after `@` is spelled as an immediate's number is a DESIGN CHOICE (log 8). -/
def regNameOf (cs : List Char) : Option RegName :=
  if cs = "CMD".toList then some .cmd
  else if cs = "DATA".toList then some .data
  else if cs = "STATUS".toList then some .status
  else if cs = "LEN_LO".toList then some .lenLo
  else if cs = "LEN_HI".toList then some .lenHi
  else if cs.take 1 = "@".toList then (numberOf (cs.drop 1)).map .at
  else if cs.take 6 = "DIGEST".toList ∧ cs.length = 7 then
    (numberOf (cs.drop 6)).bind fun i => if h : i < 4 then some (.digest ⟨i, h⟩) else none
  else if cs.take 3 = "HEX".toList ∧ cs.length = 4 then
    (numberOf (cs.drop 3)).bind fun j => if h : j < 8 then some (.hex ⟨j, h⟩) else none
  else none

/-- The code points of a text, in string order (R76). -/
def codePointsOf (cs : List Char) : List Word := cs.map fun c => BitVec.ofNat 32 c.toNat

/-- The line a token sequence spells (R75, R76). DESIGN CHOICE (log 8): R75 gives the count of `ABSORB.c` as c in 1..4 and not
how its digits are spelled; here any spelling that `numberOf` reads will do, so `ABSORB.0x4` and `ABSORB.004` are `ABSORB.4`. -/
def lineOf : List Token → Option AsmLine
  | [] => none
  | .word m :: args =>
    if m.take 7 = "ABSORB.".toList then
      (numberOf (m.drop 7)).bind fun c =>
        match args with
        | [] => some (.absorb c none)
        | [t] => (immOf t).map fun v => .absorb c (some v)
        | _ => none
    else if m = "ABSORB_BYTES".toList then (bytesOf args).map .absorbBytes
    else if m = "MD4".toList then (bytesOf args).map .md4
    else
      match args with
      | [] =>
        if m = "INIT".toList then some .init
        else if m = "ABSORB_CP".toList then some (.absorbCp none)
        else if m = "FINAL".toList then some .final
        else if m = "RD_DIGEST".toList then some .rdDigest
        else if m = "RD_HEX".toList then some .rdHex
        else none
      | [.text cs] =>
        if m = "ABSORB_TEXT".toList then some (.absorbText (codePointsOf cs))
        else if m = "NTLM".toList then some (.ntlm (codePointsOf cs))
        else none
      | [t] =>
        if m = "ABSORB_CP".toList then (immOf t).map fun v => .absorbCp (some v)
        else if m = ".cmd".toList then (immOf t).map .cmd
        else if m = "RD".toList then
          match t with
          | .word cs => (regNameOf cs).map .rd
          | _ => none
        else none
      | [.word cs, .comma, t] =>
        if m = "WR".toList then (regNameOf cs).bind fun r => (immOf t).map (.wr r ·) else none
      | _ => none
  | _ => none

/-- Read the text of one line; a blank or comment line is no line of the program (DESIGN CHOICE, log 8). -/
def parseLine (cs : List Char) : Except AsmError (List AsmLine) := do
  let ts ← tokens cs .between
  match ts with
  | [] => return []
  | _ =>
    match lineOf ts with
    | some l => return [l]
    | none => throw .notALine

/-- The host accesses of a program given as the texts of its lines (R75). -/
def assembleText : List (List Char) → Except AsmError (List Event)
  | [] => .ok []
  | cs :: rest => do
    let ls ← parseLine cs
    let es ← assemble ls
    let more ← assembleText rest
    return es ++ more

end Sys2Proof.Machine
end

