-- ==== Sys2Proof/Machine/Platform.lean ====
section
/-! DEFINITION. A platform with several instances of the block, each at its own BASE, and several bus masters (R8, R50,
R59, R60, R64, R214). The core machine of this model is one instance; this file is the layer above it. A `schedule`
says whose turn it is: every interleaving of the masters' accesses is some schedule, and nothing arbitrates (R60). -/

namespace Sys2Proof.Machine

/-- One access of a bus master at an address of the platform (R12). -/
inductive BusAccess where
  /-- `MemRead(addr, n)`. -/
  | read (addr n : Nat)
  /-- `MemWrite(addr, n, v)`. -/
  | write (addr n : Nat) (v : Word)
  deriving DecidableEq, Repr

/-- The address of an access. -/
def BusAccess.addr : BusAccess → Nat
  | .read a _ => a
  | .write a _ _ => a

/-- The access as the block sees it: it decodes offset bits [7:0] (R50). -/
def BusAccess.toEvent : BusAccess → Event
  | .read a n => .read (BitVec.ofNat 8 a) n
  | .write a n v => .write (BitVec.ofNat 8 a) n v

/-- One instance and the base address of its window. -/
structure Slot where
  base : Nat
  block : State
  deriving DecidableEq, Repr

/-- A bus master: its accesses in issue order (R59), and the values its reads returned, oldest first. -/
structure Master where
  queue : List BusAccess
  results : List Word
  deriving DecidableEq, Repr

/-- Whose turn it is. -/
inductive Turn where
  /-- Master `k` performs its next access. -/
  | master (k : Nat)
  /-- The platform resets instance `i` (R230). -/
  | reset (i : Nat)
  deriving DecidableEq, Repr

/-- The platform. The instances share no state (R214). -/
structure Platform where
  slots : List Slot
  masters : List Master
  schedule : List Turn
  deriving DecidableEq, Repr

/-- Each instance starts from reset, at its base (R214, R230). -/
def Platform.start (c : Config) (queues : List (List BusAccess)) (schedule : List Turn) : Platform where
  slots := c.bases.map fun b => ⟨b, State.reset⟩
  masters := queues.map fun q => ⟨q, []⟩
  schedule := schedule

/-- The configuration a platform has. -/
def Platform.config (p : Platform) : Config := ⟨p.slots.map Slot.base⟩

/-- `addr` lies in the window of an instance: `BASE` to `BASE + 0xFF` (R50). -/
def inWindow (addr : Nat) (sl : Slot) : Bool := decide (sl.base ≤ addr ∧ addr < sl.base + windowBytes)

/-- What a read returns from a block, as a list of one value; a write returns none. -/
def returnedBy (e : Event) (s : State) : List Word :=
  match e with
  | .read off _ => [readReg (regAt off) s]
  | .write _ _ _ => []
  | .reset => []

/-- Perform an access at instance `i` for master `k`, whose later accesses are `queue`. -/
def Platform.serveAt (p : Platform) (k i : Nat) (sl : Slot) (m : Master) (a : BusAccess) (queue : List BusAccess) :
    Host.Outcome Platform Fault Refusal :=
  match perform a.toEvent sl.block with
  | .next b =>
    .next { p with
      slots := p.slots.set i { sl with block := b }
      masters := p.masters.set k ⟨queue, m.results ++ returnedBy a.toEvent sl.block⟩ }
  | .fault f => .fault f
  | .refused r => .refused r

/-- Route an access to the instance whose window holds its address; what lies outside is the platform's own (R64). -/
def Platform.serve (p : Platform) (k : Nat) (m : Master) (a : BusAccess) (queue : List BusAccess) :
    Host.Outcome Platform Fault Refusal :=
  match p.slots.findIdx? (inWindow a.addr) with
  | none => .refused (.outsideEveryWindow a.addr)
  | some i =>
    match p.slots[i]? with
    | none => .refused (.outsideEveryWindow a.addr)
    | some sl => p.serveAt k i sl m a queue

/-- Master `k`'s turn: its next access is performed; a master with none left lets its turn pass. -/
def Platform.masterTurn (p : Platform) (k : Nat) : Host.Outcome Platform Fault Refusal :=
  match p.masters[k]? with
  | none => .next p
  | some m =>
    match m.queue with
    | [] => .next p
    | a :: queue => p.serve k m a queue

/-- The reset of one instance (R214, R230); the others do not see it. -/
def Platform.resetInstance (p : Platform) (i : Nat) : Platform :=
  { p with slots := p.slots.modify i fun sl => { sl with block := hardReset sl.block } }

/-- One atomic step of the platform: the next turn of the schedule (R59, R60). -/
def Platform.step (p : Platform) : Host.Outcome Platform Fault Refusal :=
  match p.schedule with
  | [] => .next p
  | .master k :: rest => Platform.masterTurn { p with schedule := rest } k
  | .reset i :: rest => .next (Platform.resetInstance { p with schedule := rest } i)

end Sys2Proof.Machine
end

