-- ==== Sys2Proof/Machine/Reference.lean ====
section
/-! DEFINITION. The two function contracts the block realises (R151, R179), written over whole messages as the source has
them (the padded message is one byte sequence, read block by block: 90_conflicts.md C3). The block's streaming form is
`appendMsgs` and `padMessage`; that the two agree is a statement. This reading of the two functions is DEDUCED (log 15). -/

namespace Sys2Proof.Machine

/-- The padded message (R145, R146): `0x80`, zero bytes up to 56 modulo 64, the bit length as 8 little-endian bytes. -/
def paddedMessage (m : List Byte) : List Byte :=
  m ++ [0x80] ++ List.replicate ((119 - m.length % 64) % 64) 0x00 ++ lengthBytes (BitVec.ofNat 64 (8 * m.length))

/-- The block of the first 64 bytes of a sequence; a shorter one (of no padded message) is filled with zeros. -/
def toBlock (bs : List Byte) : Vector Byte 64 :=
  ⟨(bs.take 64 ++ List.replicate (64 - bs.length) 0x00).toArray, by simp; omega⟩

/-- The first `n` blocks of a byte sequence. -/
def blocksOf : Nat → List Byte → List (Vector Byte 64)
  | 0, _ => []
  | n + 1, bs => toBlock bs :: blocksOf n (bs.drop 64)

/-- Compress the first `n` blocks of a byte sequence, each from the S the one before left (R150). -/
def compressBlocks (n : Nat) (bs : List Byte) (S : Quad) : Quad := (blocksOf n bs).foldl compressBlock S

/-- The final digest state of a message (R151): its padded blocks compressed from IV. -/
def md4 (m : List Byte) : Quad := compressBlocks ((paddedMessage m).length / 64) (paddedMessage m) Quad.initial

/-- `digest(message)`: 16 bytes (R147, R151). -/
def md4Digest (m : List Byte) : List Byte := digestBytes (md4 m)

/-- The UTF-16LE bytes of a string of code points, with no byte-order mark (R171 to R173). -/
def utf16leMessage (cps : List Word) : List Byte := cps.flatMap utf16leBytes

/-- `ntlm_hash(password)`: 32 characters (R179). -/
def ntlmHash (cps : List Word) : List Byte := hexString (md4 (utf16leMessage cps))

end Sys2Proof.Machine
end

