-- ==== Sys2Proof/Safety.lean ====
section
/-! DEFINITION. The terms claims are stated in: a host whose accesses are all admitted, the relation between LEN, FILL and
DONE that every run keeps, what a state shows beyond its unspecified parts, and the effect of appending bytes said
without the byte path. -/

namespace Sys2Proof.Machine

/-- An event the model gives a step: an admitted access (R51) or a reset. A run is safe when all its events are. -/
def Event.safe : Event → Bool
  | .read off n => admitted off n
  | .write off n _ => admitted off n
  | .reset => true

/-- How LEN, FILL and DONE hang together: while accepting, the block buffer holds the message bytes since the last whole
block (R26, R27, R142); once done, it is empty (R145). -/
def State.consistent (s : State) : Prop :=
  if s.DONE then s.FILL = 0 else s.LEN.toNat % 512 = 8 * s.FILL.val

/-- Two states that differ at most in what the spec leaves unspecified and unobservable: W (R24), the bytes of BUF at
FILL and above (R25), and how many free values the model has drawn. -/
structure SameVisible (s t : State) : Prop where
  acc : s.S = t.S
  fill : s.FILL = t.FILL
  len : s.LEN = t.LEN
  done : s.DONE = t.DONE
  errCmd : s.ERR_CMD = t.ERR_CMD
  errEnc : s.ERR_ENC = t.ERR_ENC
  errSeq : s.ERR_SEQ = t.ERR_SEQ
  data : s.DATA = t.DATA
  pending : s.pending = t.pending
  observed : s.observed = t.observed
  buf : ∀ i : Fin 64, i < s.FILL → s.BUF[i] = t.BUF[i]

/-- The block that is whole once `bs` follows the FILL bytes already in BUF: what COMPRESS reads then. -/
def blockWith (bs : List Byte) (s : State) : Vector Byte 64 := toBlock (s.BUF.toList.take s.FILL.val ++ bs)

/-- `t` is `s` with the message bytes `bs`, at most 64, appended (R140, R141), and everything else as before. What W holds,
and what BUF holds at FILL and above once a block was compressed, is unspecified (R24, R25) and not mentioned. -/
structure MessageAppended (bs : List Byte) (s t : State) : Prop where
  len : t.LEN = s.LEN + BitVec.ofNat 64 (8 * bs.length)
  fill : t.FILL.val = (s.FILL.val + bs.length) % 64
  acc : t.S = if s.FILL.val + bs.length < 64 then s.S else compressBlock s.S (blockWith bs s)
  current : ∀ i : Fin 64, i < t.FILL →
    t.BUF[i] = (s.BUF.toList.take s.FILL.val ++ bs).getD (64 * ((s.FILL.val + bs.length) / 64) + i.val) 0
  above : s.FILL.val + bs.length < 64 → ∀ i : Fin 64, s.FILL.val + bs.length ≤ i.val → t.BUF[i] = s.BUF[i]
  done : t.DONE = s.DONE
  errCmd : t.ERR_CMD = s.ERR_CMD
  errEnc : t.ERR_ENC = s.ERR_ENC
  errSeq : t.ERR_SEQ = s.ERR_SEQ
  data : t.DATA = s.DATA
  pending : t.pending = s.pending
  observed : t.observed = s.observed

/-- The bytes of the length field: `BYTE(LEN, m)` for m in 0..7 (R145 step 4). -/
def lengthField (s : State) : List Byte := (List.range 8).map fun m => s.LEN.extractLsb' (8 * m) 8

/-- The first padding block of FINAL: the bytes in BUF, `0x80`, zeros, and, where the 8 length bytes still fit (FILL at
most 55), the length (R145, R146). -/
def firstPaddingBlock (s : State) : Vector Byte 64 :=
  if s.FILL.val ≤ 55 then blockWith (0x80 :: List.replicate (55 - s.FILL.val) 0x00 ++ lengthField s) s
  else blockWith (0x80 :: List.replicate (63 - s.FILL.val) 0x00) s

/-- The second padding block, which FINAL needs when FILL is 56 or more: 56 zeros and the length (R145, R146). -/
def secondPaddingBlock (s : State) : Vector Byte 64 := toBlock (List.replicate 56 0x00 ++ lengthField s)

/-- One access of a host that feeds a message: a DATA write, or one of the two commands that append. A command uses what
DATA holds, so several may share one DATA write (R149, R235). -/
inductive Feed where
  /-- `WR DATA, w`. -/
  | data (w : Word)
  /-- `ABSORB.c`. -/
  | absorb (c : Nat)
  /-- `ABSORB_CP`. -/
  | codePoint
  deriving DecidableEq, Repr

/-- The host access of a feed (R75). -/
def Feed.event : Feed → Event
  | .data w => .write 0x04 4 w
  | .absorb c => commandWrite (encode (.absorb c))
  | .codePoint => commandWrite (encode .absorbCp)

/-- The host accesses of a sequence of feeds, in order. -/
def feedEvents (fs : List Feed) : List Event := fs.map Feed.event

/-- The message bytes a sequence of feeds appends when DATA holds `d` at its start; none where a count is none of the
command's or the encoder rejects a code point. -/
def feedBytes : List Feed → Word → Option (List Byte)
  | [], _ => some []
  | .data w :: fs, _ => feedBytes fs w
  | .absorb c :: fs, d =>
    if (Instr.absorb c).wellFormed then (feedBytes fs d).map (absorbBytes c d ++ ·) else none
  | .codePoint :: fs, d => (encodeCodePoint d).bind fun bs => (feedBytes fs d).map (bs ++ ·)

/-- What DATA holds after a sequence of feeds, when it holds `d` at its start (R30). -/
def feedData : List Feed → Word → Word
  | [], d => d
  | .data w :: fs, _ => feedData fs w
  | .absorb _ :: fs, d => feedData fs d
  | .codePoint :: fs, d => feedData fs d

/-- No error flag is set (R207). -/
def State.noError (s : State) : Prop := s.ERR_CMD = false ∧ s.ERR_ENC = false ∧ s.ERR_SEQ = false

end Sys2Proof.Machine
end

