-- ==== Sys2Proof/Certificates/Slice0/Obligations.lean ====
section
/-! DEFINITION. The statements for the provers. Each docstring names the rule of spec/ it formalises; "model's choice, log n"
marks a clause that rests on notes/assumptions/n.md and not on a rule. -/

open Sys2Proof Sys2Proof.Machine

/-! ## Encoding -/

/-- R72, R73: a word decodes to an instruction exactly when the instruction is well-formed and the word is its encoding,
so decode and encode agree in both directions. -/
def Obligations.DecodeMatchesEncode : Prop :=
  ∀ (w : Word) (i : Instr), decode w = .ok i ↔ (i.wellFormed = true ∧ encode i = w)

/-- R72, R74: exactly seven command words are legal. -/
def Obligations.SevenWordsAreLegal : Prop :=
  ∀ w : Word, (∃ i, decode w = .ok i) ↔
    w ∈ ([0x00000001, 0x00000002, 0x00000012, 0x00000022, 0x00000032, 0x00000003, 0x00000004] : List Word)

/-- R72, V-D1: words written out bit by bit decode to the commands they stand for, and some near them are illegal.
The three names of the cause are those of R201's list; that the decoder answers a name, and which, is the model's choice
(log 12). -/
def Obligations.WrittenOutWordsDecode : Prop :=
  decode 0b00000000000000000000000000000001 = .ok .init ∧
  decode 0b00000000000000000000000000000010 = .ok (.absorb 1) ∧
  decode 0b00000000000000000000000000010010 = .ok (.absorb 2) ∧
  decode 0b00000000000000000000000000100010 = .ok (.absorb 3) ∧
  decode 0b00000000000000000000000000110010 = .ok (.absorb 4) ∧
  decode 0b00000000000000000000000000000011 = .ok .absorbCp ∧
  decode 0b00000000000000000000000000000100 = .ok .final ∧
  decode 0b00000000000000000000000000000000 = .error .unknownOperation ∧
  decode 0b00000000000000000000000000010001 = .error .countNotZero ∧
  decode 0b00000000000000000000000001000010 = .error .reservedBits

/-! ## Steps and accesses -/

/-- R34: a 32-bit write to CMD performs the command its word encodes, in one step; a read of CMD returns 0 and has no
effect. -/
def Obligations.CmdWritePerformsCommand : Prop :=
  (∀ (s : State) (w : Word) (i : Instr) (rest : List Event),
    s.pending = .write 0x00 4 w :: rest → decode w = .ok i → step s = exec i { s with pending := rest }) ∧
  (∀ (s : State) (rest : List Event),
    s.pending = .read 0x00 4 :: rest →
      step s = .next { s with pending := rest, observed := s.observed ++ [0x00000000] })

/-- Log 4 (model's choice): a command word placed by `withFetchWord` is performed by the very next step. -/
def Obligations.PlacedCommandRunsNext : Prop :=
  ∀ (s : State) (w : Nat) (i : Instr),
    decodeTableWord 32 w = some i → step (s.withFetchWord 32 w) = exec i s

/-- R6, R59: a step performs the oldest pending access and no other; a read appends its value to what the host has read,
nothing else does. With no access pending the block waits (R238; model's choice, log 5). -/
def Obligations.StepTakesOldestAccess : Prop :=
  (∀ s : State, s.pending = [] → step s = .next s) ∧
  (∀ (s t : State) (e : Event) (rest : List Event), s.pending = e :: rest → step s = .next t →
    t.pending = rest ∧
    t.observed = s.observed ++ (match e with
      | .read off _ => [readReg (regAt off) s]
      | .write _ _ _ => []
      | .reset => []))

/-- R51: an access is performed when it is 32 bits wide at an offset that is a multiple of 4; any other is refused and has
no step. -/
def Obligations.OnlyAlignedWordAccessesAdmitted : Prop :=
  ∀ (s : State) (off : Offset) (n : Nat) (v : Word) (rest : List Event),
    ((n = 4 ∧ off.toNat % 4 = 0) →
      (s.pending = .read off n :: rest → ∃ t, step s = .next t) ∧
      (s.pending = .write off n v :: rest → ∃ t, step s = .next t)) ∧
    (¬ (n = 4 ∧ off.toNat % 4 = 0) →
      (s.pending = .read off n :: rest → step s = .refused (.accessNotAdmitted off n)) ∧
      (s.pending = .write off n v :: rest → step s = .refused (.accessNotAdmitted off n)))

/-- R53, R35, R41: an admitted read changes nothing in the block; a write to DATA sets DATA and nothing else; a write to any
offset but CMD and DATA changes nothing. -/
def Obligations.AccessesHaveNoOtherEffect : Prop :=
  ∀ (s : State) (off : Offset) (v : Word) (rest : List Event), off.toNat % 4 = 0 →
    (s.pending = .read off 4 :: rest →
      step s = .next { s with pending := rest, observed := s.observed ++ [readReg (regAt off) s] }) ∧
    (s.pending = .write off 4 v :: rest → off = 0x04 → step s = .next { s with pending := rest, DATA := v }) ∧
    (s.pending = .write off 4 v :: rest → off ≠ 0x00 → off ≠ 0x04 → step s = .next { s with pending := rest })

/-- R30: DATA holds what the host last wrote to it; no command writes it, and reset sets it to 0. -/
def Obligations.DataChangesOnlyByHostWriteOrReset : Prop :=
  ∀ (s t : State), step s = .next t →
    (∀ v rest, s.pending = .write 0x04 4 v :: rest → t.DATA = v) ∧
    (∀ rest, s.pending = .reset :: rest → t.DATA = 0x00000000) ∧
    ((∀ v rest, s.pending ≠ .write 0x04 4 v :: rest) → (∀ rest, s.pending ≠ .reset :: rest) → t.DATA = s.DATA)

/-- R62, R235: a command uses the DATA value written just before its CMD write. -/
def Obligations.CommandUsesDataWrittenBefore : Prop :=
  ∀ (s : State) (v w : Word) (i : Instr) (rest : List Event),
    s.pending = .write 0x04 4 v :: .write 0x00 4 w :: rest → decode w = .ok i →
      Sys2Proof.core.run 2 s = exec i { s with DATA := v, pending := rest }

/-- 10_state.md section 7 (R34 to R39, R41): what a read of each offset returns, STATUS by its formula (R36). -/
def Obligations.RegisterMapReads : Prop :=
  ∀ s : State,
    readReg (regAt 0x00) s = 0 ∧
    readReg (regAt 0x04) s = s.DATA ∧
    readReg (regAt 0x08) s = (BitVec.ofNat 6 s.FILL.val ++ 0b0000#4 ++ BitVec.ofBool s.ERR_SEQ ++ BitVec.ofBool s.ERR_ENC ++
      BitVec.ofBool s.ERR_CMD ++ BitVec.ofBool s.DONE).setWidth 32 ∧
    readReg (regAt 0x0C) s = s.LEN.extractLsb' 0 32 ∧
    readReg (regAt 0x10) s = s.LEN.extractLsb' 32 32 ∧
    readReg (regAt 0x20) s = s.S.a ∧
    readReg (regAt 0x24) s = s.S.b ∧
    readReg (regAt 0x28) s = s.S.c ∧
    readReg (regAt 0x2C) s = s.S.d ∧
    (∀ j : Fin 8, readReg (regAt (BitVec.ofNat 8 (0x30 + 4 * j.val))) s = hexWord s.S j.val) ∧
    (∀ off : Offset, off.toNat % 4 = 0 →
      (0x14 ≤ off.toNat ∧ off.toNat ≤ 0x1C) ∨ 0x50 ≤ off.toNat → readReg (regAt off) s = 0)

/-- R36: the layout of STATUS at offset 0x08, its reserved bits, its value at reset, and that writes to it are ignored. -/
def Obligations.StatusLayout : Prop :=
  (∀ s : State,
    (readReg (regAt 0x08) s).getLsbD 0 = s.DONE ∧
    (readReg (regAt 0x08) s).getLsbD 1 = s.ERR_CMD ∧
    (readReg (regAt 0x08) s).getLsbD 2 = s.ERR_ENC ∧
    (readReg (regAt 0x08) s).getLsbD 3 = s.ERR_SEQ ∧
    (readReg (regAt 0x08) s).extractLsb' 4 4 = 0 ∧
    ((readReg (regAt 0x08) s).extractLsb' 8 6).toNat = s.FILL.val ∧
    (readReg (regAt 0x08) s).extractLsb' 14 18 = 0) ∧
  readReg (regAt 0x08) State.reset = 0x00000000 ∧
  (∀ (s : State) (v : Word) (rest : List Event),
    s.pending = .write 0x08 4 v :: rest → step s = .next { s with pending := rest })

/-! ## Reset -/

/-- R230: the reset values of every element that has one, and of the registers that show them. -/
def Obligations.ResetValues : Prop :=
  State.reset.S = ⟨0x67452301, 0xEFCDAB89, 0x98BADCFE, 0x10325476⟩ ∧
  State.reset.FILL = 0 ∧ State.reset.LEN = 0 ∧ State.reset.DONE = false ∧
  State.reset.ERR_CMD = false ∧ State.reset.ERR_ENC = false ∧ State.reset.ERR_SEQ = false ∧
  State.reset.DATA = 0x00000000 ∧
  readReg .status State.reset = 0 ∧ readReg .lenLo State.reset = 0 ∧ readReg .lenHi State.reset = 0 ∧
  readReg .cmd State.reset = 0

/-- R40: what HEX0..HEX7 read at reset. -/
def Obligations.ResetHexValues : Prop :=
  readReg (.hex 0) State.reset = 0x33323130 ∧ readReg (.hex 1) State.reset = 0x37363534 ∧
  readReg (.hex 2) State.reset = 0x42413938 ∧ readReg (.hex 3) State.reset = 0x46454443 ∧
  readReg (.hex 4) State.reset = 0x43444546 ∧ readReg (.hex 5) State.reset = 0x38394142 ∧
  readReg (.hex 6) State.reset = 0x34353637 ∧ readReg (.hex 7) State.reset = 0x30313233

/-- R230, R231, R232: a reset between two accesses gives every element that has a reset value that value, whatever the
state before, and is what INIT followed by clearing DATA leaves there; the host's later accesses are still to come. -/
def Obligations.ResetEventLeavesInitState : Prop :=
  ∀ (s : State) (rest : List Event), s.pending = .reset :: rest →
    ∃ t u, step s = .next t ∧ exec .init s = .next u ∧
      t.S = u.S ∧ t.FILL = u.FILL ∧ t.LEN = u.LEN ∧ t.DONE = u.DONE ∧
      t.ERR_CMD = u.ERR_CMD ∧ t.ERR_ENC = u.ERR_ENC ∧ t.ERR_SEQ = u.ERR_SEQ ∧
      t.S = State.reset.S ∧ t.FILL = 0 ∧ t.LEN = 0 ∧ t.DONE = false ∧ t.noError ∧
      t.DATA = 0x00000000 ∧ t.pending = rest ∧ t.observed = s.observed

/-! ## The commands -/

/-- R200, R54: every command completes in every state: none faults, none is refused. -/
def Obligations.EveryCommandCompletes : Prop :=
  ∀ (i : Instr) (s : State), ∃ t, exec i s = .next t

/-- R143: INIT, in every state, sets S to IV and FILL, LEN, DONE and the three error flags to 0, leaves DATA and the host
port alone, and twice is the same as once, as far as anything the spec specifies goes. -/
def Obligations.InitStartsComputation : Prop :=
  ∀ s : State, ∃ t, exec .init s = .next t ∧
    t.S = ⟨0x67452301, 0xEFCDAB89, 0x98BADCFE, 0x10325476⟩ ∧
    t.FILL = 0 ∧ t.LEN = 0 ∧ t.DONE = false ∧ t.ERR_CMD = false ∧ t.ERR_ENC = false ∧ t.ERR_SEQ = false ∧
    t.DATA = s.DATA ∧ t.pending = s.pending ∧ t.observed = s.observed ∧
    ∃ u, exec .init t = .next u ∧ SameVisible t u

/-- R144, R140, R141, R57: ABSORB.c while accepting appends `DATA[8m+7:8m]` for m = 0 to c - 1, across the end of a block if
need be, and changes nothing else; DATA[31:8c] plays no part. -/
def Obligations.AbsorbAppendsDataBytes : Prop :=
  ∀ (c : Nat) (s : State), 1 ≤ c → c ≤ 4 → s.DONE = false →
    ∃ t, exec (.absorb c) s = .next t ∧
      MessageAppended ((List.range c).map fun m => s.DATA.extractLsb' (8 * m) 8) s t

/-- R171, R172, R174: ABSORB_CP while accepting appends the UTF-16LE bytes of a valid code point, two bytes up to 0xFFFF and
a surrogate pair's four above, and changes nothing else. -/
def Obligations.AbsorbCpAppendsUtf16le : Prop :=
  ∀ s : State, s.DONE = false →
    ((s.DATA.toNat ≤ 0xD7FF ∨ (0xE000 ≤ s.DATA.toNat ∧ s.DATA.toNat ≤ 0xFFFF)) →
      ∃ t, exec .absorbCp s = .next t ∧
        MessageAppended [s.DATA.extractLsb' 0 8, s.DATA.extractLsb' 8 8] s t) ∧
    ((0x10000 ≤ s.DATA.toNat ∧ s.DATA.toNat ≤ 0x10FFFF) →
      ∃ (t : State) (hi lo : Nat), hi = 0xD800 + (s.DATA.toNat - 0x10000) / 0x400 ∧
        lo = 0xDC00 + (s.DATA.toNat - 0x10000) % 0x400 ∧
        hi ≤ 0xDBFF ∧ lo ≤ 0xDFFF ∧
        exec .absorbCp s = .next t ∧
        MessageAppended [BitVec.ofNat 8 (hi % 0x100), BitVec.ofNat 8 (hi / 0x100),
          BitVec.ofNat 8 (lo % 0x100), BitVec.ofNat 8 (lo / 0x100)] s t)

/-- R203, R170: ABSORB_CP while accepting, of a surrogate or of a value above 0x10FFFF, sets ERR_ENC and changes nothing
else: the block is still accepting and DATA holds the rejected code point. No other command sets ERR_ENC. -/
def Obligations.RejectedCodePointOnlySetsErrEnc : Prop :=
  (∀ s : State, s.DONE = false →
    ((0xD800 ≤ s.DATA.toNat ∧ s.DATA.toNat ≤ 0xDFFF) ∨ 0x10FFFF < s.DATA.toNat) →
      exec .absorbCp s = .next { s with ERR_ENC := true }) ∧
  (∀ (i : Instr) (s t : State), exec i s = .next t → s.ERR_ENC = false → t.ERR_ENC = true → i = .absorbCp)

/-- R145, R146: FINAL while accepting compresses one padding block when FILL is at most 55 and two when it is 56 or more, with
the length LEN in the last 8 bytes; it sets DONE, leaves FILL = 0, and changes no other flag, LEN, DATA or the host port. -/
def Obligations.FinalPadsAndCompresses : Prop :=
  ∀ s : State, s.DONE = false →
    ∃ t, exec .final s = .next t ∧
      t.S = (if s.FILL.val ≤ 55 then compressBlock s.S (firstPaddingBlock s)
        else compressBlock (compressBlock s.S (firstPaddingBlock s)) (secondPaddingBlock s)) ∧
      t.DONE = true ∧ t.FILL = 0 ∧ t.LEN = s.LEN ∧
      t.ERR_CMD = s.ERR_CMD ∧ t.ERR_ENC = s.ERR_ENC ∧ t.ERR_SEQ = s.ERR_SEQ ∧
      t.DATA = s.DATA ∧ t.pending = s.pending ∧ t.observed = s.observed

/-- R145 step 3, R146: the padding loop reaches FILL = 56 from every FILL, after `(56 - FILL) mod 64` zero bytes, and the
fuel the model gives it never cuts it short. -/
def Obligations.PaddingLoopReaches56 : Prop :=
  ∀ (s : State) (fuel : Nat), 63 ≤ fuel →
    (padZeros fuel s).FILL = 56 ∧
    padZeros fuel s = appendRaws (List.replicate ((120 - s.FILL.val) % 64) 0x00) s

/-! ## Errors -/

/-- R201: a CMD write of a word with RSV nonzero, an unknown OP, or N nonzero where OP has no count, sets ERR_CMD in every
state and changes nothing else; the word is not kept. -/
def Obligations.IllegalWordOnlySetsErrCmd : Prop :=
  ∀ (s : State) (w : Word) (rest : List Event), s.pending = .write 0x00 4 w :: rest →
    (w.extractLsb' 6 26 ≠ 0 ∨ w.extractLsb' 0 4 ∉ ([1, 2, 3, 4] : List (BitVec 4)) ∨
      (w.extractLsb' 0 4 ∈ ([1, 3, 4] : List (BitVec 4)) ∧ w.extractLsb' 4 2 ≠ 0)) →
    step s = .next { s with pending := rest, ERR_CMD := true }

/-- R202: ABSORB, ABSORB_CP and FINAL while DONE = 1 set ERR_SEQ and change nothing else; INIT never sets it. -/
def Obligations.DoneStateRaisesErrSeq : Prop :=
  (∀ (s : State) (i : Instr), s.DONE = true → i ≠ .init → exec i s = .next { s with ERR_SEQ := true }) ∧
  (∀ s t : State, exec .init s = .next t → t.ERR_SEQ = false)

/-- R204: one CMD write sets at most one error flag, and the conditions are tested in the order illegal word, DONE = 1,
rejected code point. -/
def Obligations.OneErrorFlagPerCommand : Prop :=
  ∀ (s : State) (w : Word) (rest : List Event), s.pending = .write 0x00 4 w :: rest →
    (∀ (t : State) (j k : ErrorKind), step s = .next t →
      errorFlag j s = false → errorFlag j t = true → errorFlag k s = false → errorFlag k t = true → j = k) ∧
    (∀ r, decode w = .error r → step s = .next { s with pending := rest, ERR_CMD := true }) ∧
    (∀ i, decode w = .ok i → i ≠ .init → s.DONE = true →
      step s = .next { s with pending := rest, ERR_SEQ := true }) ∧
    (decode w = .ok .absorbCp → s.DONE = false → validCodePoint s.DATA = false →
      step s = .next { s with pending := rest, ERR_ENC := true })

/-- R205, R201 to R203: an error flag is set only by its own condition, and once set stays set through every step but INIT
and reset. -/
def Obligations.ErrorFlagsAreSticky : Prop :=
  ∀ s t : State, step s = .next t →
    (s.ERR_CMD = false → t.ERR_CMD = true →
      ∃ w rest r, s.pending = .write 0x00 4 w :: rest ∧ decode w = .error r) ∧
    (s.ERR_SEQ = false → t.ERR_SEQ = true →
      ∃ w rest i, s.pending = .write 0x00 4 w :: rest ∧ decode w = .ok i ∧ i ≠ .init ∧ s.DONE = true) ∧
    (s.ERR_ENC = false → t.ERR_ENC = true →
      ∃ w rest, s.pending = .write 0x00 4 w :: rest ∧ decode w = .ok .absorbCp ∧ s.DONE = false ∧
        ((0xD800 ≤ s.DATA.toNat ∧ s.DATA.toNat ≤ 0xDFFF) ∨ 0x10FFFF < s.DATA.toNat)) ∧
    ((∀ rest, s.pending ≠ .reset :: rest) → (∀ w rest, s.pending = .write 0x00 4 w :: rest → decode w ≠ .ok .init) →
      ∀ k, errorFlag k s = true → errorFlag k t = true)

/-- R206: an error stops nothing: whatever the error flags hold, a command has the same effect on S, FILL, LEN, DONE, DATA and
the bytes of the current block. -/
def Obligations.ErrorsDoNotStopTheEngine : Prop :=
  ∀ (i : Instr) (s : State) (c e q : Bool), ∃ t u,
    exec i s = .next t ∧ exec i { s with ERR_CMD := c, ERR_ENC := e, ERR_SEQ := q } = .next u ∧
    u.S = t.S ∧ u.FILL = t.FILL ∧ u.LEN = t.LEN ∧ u.DONE = t.DONE ∧ u.DATA = t.DATA ∧
    ∀ j : Fin 64, j < t.FILL → u.BUF[j] = t.BUF[j]

/-- R148, R202, R238: DONE rises only by FINAL and falls only by INIT and reset; while it is 1, every other step leaves the
finished digest, LEN and FILL alone. -/
def Obligations.FinishedDigestIsKept : Prop :=
  ∀ s t : State, step s = .next t →
    (s.DONE = false → t.DONE = true →
      ∃ w rest, s.pending = .write 0x00 4 w :: rest ∧ decode w = .ok .final) ∧
    (s.DONE = true → (∀ rest, s.pending ≠ .reset :: rest) →
      (∀ w rest, s.pending = .write 0x00 4 w :: rest → decode w ≠ .ok .init) →
      t.DONE = true ∧ t.S = s.S ∧ t.LEN = s.LEN ∧ t.FILL = s.FILL)

/-- R207: `STATUS[3:0] = 0b0001` says that the computation is done and that no error flag is set. -/
def Obligations.StatusTellsTrustedDigest : Prop :=
  ∀ s : State, (digestTrusted s = true ↔ s.DONE = true ∧ s.noError) ∧
    (digestTrusted s = true ↔ (readReg (regAt 0x08) s).extractLsb' 0 4 = 0b0001#4)

/-! ## The block mixer -/

/-- R102, R103, R104: F selects y where x is 1 and z where x is 0 and is not symmetric; G is the majority of the three bits
and H their exclusive or, both symmetric. -/
def Obligations.RoundFunctionsBitwise : Prop :=
  (∀ (x y z : Word) (i : Nat), i < 32 →
    (fnF x y z).getLsbD i = (if x.getLsbD i then y.getLsbD i else z.getLsbD i) ∧
    (fnG x y z).getLsbD i =
      decide (2 ≤ (x.getLsbD i).toNat + (y.getLsbD i).toNat + (z.getLsbD i).toNat) ∧
    (fnH x y z).getLsbD i =
      decide (((x.getLsbD i).toNat + (y.getLsbD i).toNat + (z.getLsbD i).toNat) % 2 = 1)) ∧
  (∀ x y z : Word, fnF x y z = (x &&& y) ||| (~~~x &&& z) ∧
    fnG x y z = (x &&& y) ||| (x &&& z) ||| (y &&& z) ∧ fnH x y z = x ^^^ y ^^^ z) ∧
  (∃ x y z : Word, fnF x y z ≠ fnF y x z) ∧
  (∀ x y z : Word, fnG x y z = fnG y x z ∧ fnG x y z = fnG x z y ∧ fnH x y z = fnH y x z ∧ fnH x y z = fnH x z y)

/-- R10: `ROTL32` is the circular left shift for 1 to 31: its formula, bit i going to bit (i + s) mod 32, and the amounts the
block uses it with. -/
def Obligations.RotationIsCircular : Prop :=
  (∀ (v : Word) (s : Nat), 1 ≤ s → s ≤ 31 →
    (rotl32 v s).toNat = (v.toNat <<< s ||| v.toNat >>> (32 - s)) % 2 ^ 32 ∧
    ∀ i < 32, (rotl32 v s).getLsbD ((i + s) % 32) = v.getLsbD i) ∧
  (∀ n < 48, (stepRow n).s ∈ [3, 5, 7, 9, 11, 13, 15, 19])

/-- R105, R106, R115: a step writes its target and nothing else; the new value is the rotated sum of the target's old value,
the function of the other three in cyclic order after the target, the word and the constant. -/
def Obligations.MixStepWritesOnlyTarget : Prop :=
  ∀ (r : StepRow) (x : Word) (w : Quad),
    (∀ t, t ≠ r.t → (mixStep r x w).get t = w.get t) ∧
    (r.t = 0 → (mixStep r x w).a = rotl32 (w.a + r.fn.apply w.b w.c w.d + x + r.K) r.s) ∧
    (r.t = 3 → (mixStep r x w).d = rotl32 (w.d + r.fn.apply w.a w.b w.c + x + r.K) r.s) ∧
    (r.t = 2 → (mixStep r x w).c = rotl32 (w.c + r.fn.apply w.d w.a w.b + x + r.K) r.s) ∧
    (r.t = 1 → (mixStep r x w).b = rotl32 (w.b + r.fn.apply w.c w.d w.a + x + r.K) r.s)

/-- R111, R107 to R110: the step table, round by round: target, word index, rotation amount; and the function and constant of
each round. -/
def Obligations.StepTableRows : Prop :=
  (List.range 16).map (fun n => ((stepRow n).t.val, (stepRow n).k.val, (stepRow n).s)) =
    [(0, 0, 3), (3, 1, 7), (2, 2, 11), (1, 3, 19), (0, 4, 3), (3, 5, 7), (2, 6, 11), (1, 7, 19)] ++
    [(0, 8, 3), (3, 9, 7), (2, 10, 11), (1, 11, 19), (0, 12, 3), (3, 13, 7), (2, 14, 11), (1, 15, 19)] ∧
  (List.range 16).map (fun n => ((stepRow (16 + n)).t.val, (stepRow (16 + n)).k.val, (stepRow (16 + n)).s)) =
    [(0, 0, 3), (3, 4, 5), (2, 8, 9), (1, 12, 13), (0, 1, 3), (3, 5, 5), (2, 9, 9), (1, 13, 13)] ++
    [(0, 2, 3), (3, 6, 5), (2, 10, 9), (1, 14, 13), (0, 3, 3), (3, 7, 5), (2, 11, 9), (1, 15, 13)] ∧
  (List.range 16).map (fun n => ((stepRow (32 + n)).t.val, (stepRow (32 + n)).k.val, (stepRow (32 + n)).s)) =
    [(0, 0, 3), (3, 8, 9), (2, 4, 11), (1, 12, 15), (0, 2, 3), (3, 10, 9), (2, 6, 11), (1, 14, 15)] ++
    [(0, 1, 3), (3, 9, 9), (2, 5, 11), (1, 13, 15), (0, 3, 3), (3, 11, 9), (2, 7, 11), (1, 15, 15)] ∧
  (∀ n < 16, (stepRow n).fn = .F ∧ (stepRow n).K = 0x00000000 ∧
    (stepRow (16 + n)).fn = .G ∧ (stepRow (16 + n)).K = 0x5A827999 ∧
    (stepRow (32 + n)).fn = .H ∧ (stepRow (32 + n)).K = 0x6ED9EBA1)

/-- R100, R101, R111, R112, R113: COMPRESS runs steps 0 to 47 in order from W = S, step n with the word `X[k]` of its row,
where `X[j] = LE32(BUF[4j..4j+3])`; it adds W to S word by word and writes nothing but S and W. -/
def Obligations.CompressRunsTheStepTable : Prop :=
  ∀ s : State,
    let X : Fin 16 → Word := fun j => s.BUF[4 * j.val + 3] ++ s.BUF[4 * j.val + 2] ++ s.BUF[4 * j.val + 1] ++ s.BUF[4 * j.val]
    let w := (List.range 48).foldl (fun w n => mixStep (stepRow n) (X (stepRow n).k) w) s.S
    compress s = { s with S := ⟨s.S.a + w.a, s.S.b + w.b, s.S.c + w.c, s.S.d + w.d⟩, W := w }

/-- R113's worked example, R231: FINAL straight after reset gives the digest state of the empty message. -/
def Obligations.EmptyMessageDigest : Prop :=
  ∃ t, step (State.reset.withFetchWord 32 0x00000004) = .next t ∧
    t.S = ⟨0xE0CFD631, 0x31E96AD1, 0xD7593CB7, 0xC089C0E0⟩ ∧ readReg .status t = 0x00000001

/-- R22, R140, R145, R146: a step changes S only by INIT or reset, which set it to IV, or by compressing, while accepting,
exactly the block that ABSORB or ABSORB_CP makes whole, or the one or two padding blocks of FINAL. -/
def Obligations.AccumulatorWrittenThreeWays : Prop :=
  ∀ s t : State, step s = .next t → t.S ≠ s.S →
    (t.S = Quad.initial ∧ ((∃ rest, s.pending = .reset :: rest) ∨
      ∃ w rest, s.pending = .write 0x00 4 w :: rest ∧ decode w = .ok .init)) ∨
    (∃ w rest i, s.pending = .write 0x00 4 w :: rest ∧ decode w = .ok i ∧ s.DONE = false ∧
      ((∃ c, i = .absorb c ∧ 64 ≤ s.FILL.val + c ∧
          t.S = compressBlock s.S (blockWith (absorbBytes c s.DATA) s)) ∨
        (i = .absorbCp ∧ validCodePoint s.DATA = true ∧ 64 ≤ s.FILL.val + (utf16leBytes s.DATA).length ∧
          t.S = compressBlock s.S (blockWith (utf16leBytes s.DATA) s)) ∨
        (i = .final ∧ s.FILL.val ≤ 55 ∧ t.S = compressBlock s.S (firstPaddingBlock s)) ∨
        (i = .final ∧ 56 ≤ s.FILL.val ∧
          t.S = compressBlock (compressBlock s.S (firstPaddingBlock s)) (secondPaddingBlock s))))

/-! ## The hex formatter and the encoder -/

/-- R175 (V-S9): every byte of every HEX register is the ASCII code of a digit or of an uppercase letter A to F, for every S. -/
def Obligations.HexBytesAreUppercaseHex : Prop :=
  ∀ (s : State) (j : Fin 8) (m : Fin 4),
    let b := (byteOf (readReg (.hex j) s) m.val).toNat
    (0x30 ≤ b ∧ b ≤ 0x39) ∨ (0x41 ≤ b ∧ b ≤ 0x46)

/-- R176, R177, R147: byte m of HEXj is character 4j + m of the hex string, whose characters 2n and 2n + 1 are the high and the
low nibble of digest byte n, which is byte n mod 4 of word S[n div 4]. -/
def Obligations.HexRegistersRenderDigest : Prop :=
  ∀ (s : State) (j : Fin 8) (m : Fin 4),
    let ch := 4 * j.val + m.val
    let d := (s.S.get (Fin.ofNat 4 (ch / 8))).extractLsb' (8 * (ch / 2 % 4)) 8
    byteOf (readReg (.hex j) s) m.val = hexChar (if ch % 2 = 0 then d.extractLsb' 4 4 else d.extractLsb' 0 4)

/-- R176 and R147 together: the hex string shows the whole digest, so two states whose HEX registers all read alike have the
same S. -/
def Obligations.HexRegistersDetermineDigest : Prop :=
  ∀ s t : State, (∀ j : Fin 8, readReg (.hex j) s = readReg (.hex j) t) → s.S = t.S

/-- R180: distinct strings of valid code points encode to distinct byte sequences (of the same length or not). -/
def Obligations.EncodingIsInjective : Prop :=
  ∀ xs ys : List Word, (∀ x ∈ xs, validCodePoint x = true) → (∀ y ∈ ys, validCodePoint y = true) →
    utf16leMessage xs = utf16leMessage ys → xs = ys

/-! ## Whole computations -/

/-- R140 to R142, R144, R149, R150, R174, R235: feeding a message by any accepted commands, each with the DATA value last
written, advances LEN by 8 a byte modulo 2^64 and leaves in S the chaining value after the whole blocks, and in BUF the
bytes of the current one. -/
def Obligations.FeedsChainBlocks : Prop :=
  ∀ (s : State) (fs : List Feed) (bs : List Byte) (rest : List Event),
    feedBytes fs s.DATA = some bs → s.DONE = false → s.pending = feedEvents fs ++ rest →
    ∃ t, Sys2Proof.core.run (feedEvents fs).length s = .next t ∧
      t.LEN = s.LEN + BitVec.ofNat 64 (8 * bs.length) ∧
      t.FILL.val = (s.FILL.val + bs.length) % 64 ∧
      t.S = compressBlocks ((s.FILL.val + bs.length) / 64) (s.BUF.toList.take s.FILL.val ++ bs) s.S ∧
      t.BUF.toList.take t.FILL.val =
        (s.BUF.toList.take s.FILL.val ++ bs).drop (64 * ((s.FILL.val + bs.length) / 64)) ∧
      t.DATA = feedData fs s.DATA ∧
      t.DONE = false ∧ t.ERR_CMD = s.ERR_CMD ∧ t.ERR_ENC = s.ERR_ENC ∧ t.ERR_SEQ = s.ERR_SEQ ∧
      t.pending = rest ∧ t.observed = s.observed

/-- R151: INIT, ABSORB of the bytes of a message in any groups of 1 to 4, FINAL leave the digest of the message in S, with DONE
set, no error flag, and LEN the bit length modulo 2^64, from every state. The first clause is for every sequence of DATA writes
and appending commands, the second for one DATA write before each ABSORB. The digest is that of `md4Digest`, the model's
whole-message reading of the source's function (DEDUCED, log 15). -/
def Obligations.DigestContract : Prop :=
  (∀ (s : State) (m : List Byte) (fs : List Feed) (rest : List Event),
    feedBytes fs s.DATA = some m →
    s.pending = commandWrite (encode .init) :: feedEvents fs ++ commandWrite (encode .final) :: rest →
    ∃ t, Sys2Proof.core.run (fs.length + 2) s = .next t ∧
      t.DONE = true ∧ t.noError ∧ t.LEN = BitVec.ofNat 64 (8 * m.length) ∧
      digestBytes t.S = md4Digest m ∧ t.pending = rest ∧ t.observed = s.observed) ∧
  (∀ (s : State) (m : List Byte) (groups : List (Nat × Word)) (rest : List Event),
    (∀ g ∈ groups, 1 ≤ g.1 ∧ g.1 ≤ 4) →
    m = groups.flatMap (fun g => absorbBytes g.1 g.2) →
    s.pending = commandWrite (encode .init) :: (groups.flatMap (fun g => absorbAccesses g.1 g.2)) ++
      commandWrite (encode .final) :: rest →
    ∃ t, Sys2Proof.core.run (2 * groups.length + 2) s = .next t ∧
      t.DONE = true ∧ t.noError ∧ t.LEN = BitVec.ofNat 64 (8 * m.length) ∧
      digestBytes t.S = md4Digest m ∧ t.pending = rest ∧ t.observed = s.observed)

/-- R179: INIT, a DATA write and ABSORB_CP for each valid code point in order, FINAL leave STATUS = 1 and the characters of the
string's NTLM hash in HEX0..HEX7. The hash is that of `ntlmHash`, the model's whole-message reading of the source's function
(DEDUCED, log 15). -/
def Obligations.NtlmContract : Prop :=
  ∀ (s : State) (cps : List Word) (rest : List Event),
    (∀ cp ∈ cps, validCodePoint cp = true) →
    s.pending = commandWrite (encode .init) :: absorbTextAccesses cps ++ commandWrite (encode .final) :: rest →
    ∃ t, Sys2Proof.core.run (2 * cps.length + 2) s = .next t ∧
      t.DONE = true ∧ readReg .status t = 0x00000001 ∧
      t.LEN = BitVec.ofNat 64 (16 * cps.countP (fun cp => decide (cp.toNat ≤ 0xFFFF)) +
        32 * cps.countP (fun cp => decide (0xFFFF < cp.toNat))) ∧
      (∀ (j : Fin 8) (k : Fin 4),
        byteOf (readReg (.hex j) t) k.val = (ntlmHash cps).getD (4 * j.val + k.val) 0) ∧
      t.pending = rest

/-- R152: two command sequences that append the same message bytes, by ABSORB of any counts and ABSORB_CP and with DATA writes
wherever the host makes them, leave the same S, FILL, LEN and BUF[0..FILL-1]. -/
def Obligations.GroupingInvariance : Prop :=
  ∀ (s : State) (fs gs : List Feed) (bs : List Byte),
    feedBytes fs s.DATA = some bs → feedBytes gs s.DATA = some bs → s.DONE = false →
    ∃ t u,
      Sys2Proof.core.run (feedEvents fs).length { s with pending := feedEvents fs } = .next t ∧
      Sys2Proof.core.run (feedEvents gs).length { s with pending := feedEvents gs } = .next u ∧
      t.S = u.S ∧ t.FILL = u.FILL ∧ t.LEN = u.LEN ∧ ∀ i : Fin 64, i < t.FILL → t.BUF[i] = u.BUF[i]

/-- R26, R27, R142, R145: every step keeps LEN, FILL and DONE consistent: while accepting, LEN is 8 FILL modulo 512; once done,
FILL is 0. -/
def Obligations.StepKeepsLengthConsistent : Prop :=
  ∀ s t : State, s.consistent → step s = .next t → t.consistent

/-- R230: LEN, FILL and DONE are consistent at reset. -/
def Obligations.ResetIsLengthConsistent : Prop := State.reset.consistent

/-- R24, R25, R116 (D33, D36): what the spec leaves unspecified can never be seen: two states that differ only in W and in
BUF[FILL..63] take the same kind of step and still differ only there, so every later read returns the same. -/
def Obligations.UnspecifiedPartsNeverShow : Prop :=
  ∀ s s' : State, SameVisible s s' →
    (∀ t, step s = .next t → ∃ t', step s' = .next t' ∧ SameVisible t t') ∧
    (∀ r, step s = .refused r → step s' = .refused r)

/-! ## The platform -/

/-- R214, R232: a turn of a master changes no instance but the one whose window holds the address, a reset none but the one
reset, and no turn changes a base address or the number of instances. -/
def Obligations.InstancesAreIsolated : Prop :=
  ∀ p p' : Platform, Platform.step p = .next p' →
    p'.config = p.config ∧
    (∀ (k : Nat) (rest : List Turn) (m : Master) (a : BusAccess) (queue : List BusAccess),
      p.schedule = .master k :: rest → p.masters[k]? = some m → m.queue = a :: queue →
      ∀ (j : Nat) (sl : Slot), p.slots[j]? = some sl → inWindow a.addr sl = false → p'.slots[j]? = some sl) ∧
    (∀ (i : Nat) (rest : List Turn), p.schedule = .reset i :: rest →
      ∀ j, j ≠ i → p'.slots[j]? = p.slots[j]?)

/-- R12, R50, R60: on a platform with legal bases, a master's next access at `BASE + off` of an instance, off at most 0xFF, is
performed by that instance as an access at offset `off`, whichever master makes it; only that master's queue and results
change. -/
def Obligations.AccessReachesItsInstance : Prop :=
  ∀ (p : Platform) (k i off : Nat) (rest : List Turn) (m : Master) (a : BusAccess) (queue : List BusAccess)
    (sl : Slot) (b : State),
    p.config.legal = true → p.schedule = .master k :: rest → p.masters[k]? = some m → m.queue = a :: queue →
    p.slots[i]? = some sl → a.addr = sl.base + off → off ≤ 0xFF →
    perform (match a with
      | .read _ n => .read (BitVec.ofNat 8 off) n
      | .write _ n v => .write (BitVec.ofNat 8 off) n v) sl.block = .next b →
    ∃ p', Platform.step p = .next p' ∧ p'.slots = p.slots.set i ⟨sl.base, b⟩ ∧ p'.schedule = rest ∧
      (∀ j, j ≠ k → p'.masters[j]? = p.masters[j]?) ∧
      ∃ m', p'.masters[k]? = some m' ∧ m'.queue = queue ∧
        m'.results = m.results ++ (match a with
          | .read _ _ => [readReg (regAt (BitVec.ofNat 8 off)) sl.block]
          | .write _ _ _ => [])

/-! ## The assembler -/

/-- R75: the assembler refuses a count outside 1..4, an immediate that does not fit in 32 bits on every line that takes one,
and an offset that is not a multiple of 4 or is above 0xFC. The names of the reasons, and that a bad offset is named before
a wide immediate, are the model's choice (log 17). -/
def Obligations.AssemblerRefusesBadOperands : Prop :=
  (∀ (c : Nat) (imm : Option Nat), ¬ (1 ≤ c ∧ c ≤ 4) → (AsmLine.absorb c imm).accesses = .error .countOutOfRange) ∧
  (∀ c imm : Nat, 1 ≤ c → c ≤ 4 → 2 ^ 32 ≤ imm →
    (AsmLine.absorb c (some imm)).accesses = .error .immTooWide) ∧
  (∀ imm : Nat, 2 ^ 32 ≤ imm →
    (AsmLine.absorbCp (some imm)).accesses = .error .immTooWide ∧ (AsmLine.cmd imm).accesses = .error .immTooWide) ∧
  (∀ (r : RegName) (imm : Nat), r.offset % 4 = 0 → r.offset ≤ 0xFC → 2 ^ 32 ≤ imm →
    (AsmLine.wr r imm).accesses = .error .immTooWide) ∧
  (∀ off imm : Nat, off % 4 ≠ 0 ∨ 0xFC < off →
    (AsmLine.rd (.at off)).accesses = .error .badOffset ∧ (AsmLine.wr (.at off) imm).accesses = .error .badOffset)

/-- R75, R51: every access of an assembled program is admitted. -/
def Obligations.AssembledAccessesAreAdmitted : Prop :=
  ∀ (prog : List AsmLine) (es : List Event), assemble prog = .ok es → ∀ e ∈ es, e.safe = true

/-- R76: `ABSORB_BYTES b0, ..., b(k-1)` stands for a DATA write and ABSORB.4 for each full group of four bytes, in order, and a
DATA write and ABSORB.r for the r that remain, if any; these append exactly the k bytes. `ABSORB_TEXT` stands for a DATA write
and ABSORB_CP for each code point, in order; for valid code points these append the UTF-16LE bytes of the text. -/
def Obligations.PseudoLinesAppendTheirBytes : Prop :=
  (∀ bs : List Byte,
    let q := bs.length / 4
    let r := bs.length % 4
    let group (k : Nat) := le32 (bs.getD (4 * k) 0) (bs.getD (4 * k + 1) 0) (bs.getD (4 * k + 2) 0) (bs.getD (4 * k + 3) 0)
    let fs : List Feed := (List.range q).flatMap (fun k => [.data (group k), .absorb 4]) ++
      (if r = 0 then [] else [.data (group q), .absorb r])
    (AsmLine.absorbBytes bs).accesses = .ok (feedEvents fs) ∧ ∀ d, feedBytes fs d = some bs) ∧
  (∀ cps : List Word,
    let fs : List Feed := cps.flatMap (fun cp => [.data cp, .codePoint])
    (AsmLine.absorbText cps).accesses = .ok (feedEvents fs) ∧
    ((∀ cp ∈ cps, validCodePoint cp = true) → ∀ d, feedBytes fs d = some (utf16leMessage cps)))

/-- R76, R151, R179: the program `MD4 b0, ..., b(k-1)` reads the digest words of its bytes, and the program `NTLM "s"` reads
STATUS = 1 and the eight words of the hash's characters, from every state. The digest is that of `md4`, the model's
whole-message reading of the source's function (DEDUCED, log 15). -/
def Obligations.AssembledProgramsReadTheDigest : Prop :=
  (∀ (bs : List Byte) (es : List Event) (s : State), (AsmLine.md4 bs).accesses = .ok es → s.pending = es →
    ∃ t, Sys2Proof.core.run es.length s = .next t ∧ t.pending = [] ∧
      t.observed = s.observed ++ [(md4 bs).a, (md4 bs).b, (md4 bs).c, (md4 bs).d]) ∧
  (∀ (cps : List Word) (es : List Event) (s : State), (∀ cp ∈ cps, validCodePoint cp = true) →
    (AsmLine.ntlm cps).accesses = .ok es → s.pending = es →
    ∃ t, Sys2Proof.core.run es.length s = .next t ∧ t.pending = [] ∧
      t.observed = s.observed ++
        0x00000001 :: (List.range 8).map (hexWord (md4 (utf16leMessage cps))))

/-- R76: each pseudo-instruction stands for the accesses of the lines it expands to. -/
def Obligations.PseudoLinesExpand : Prop :=
  (∀ bs : List Byte,
    let q := bs.length / 4
    let r := bs.length % 4
    let group (k : Nat) := le32 (bs.getD (4 * k) 0) (bs.getD (4 * k + 1) 0) (bs.getD (4 * k + 2) 0) (bs.getD (4 * k + 3) 0)
    (AsmLine.absorbBytes bs).accesses =
      assemble ((List.range q).map (fun k => .absorb 4 (some (group k).toNat)) ++
        (if r = 0 then [] else [.absorb r (some (group q).toNat)]))) ∧
  (∀ cps : List Word, (AsmLine.absorbText cps).accesses = assemble (cps.map fun cp => .absorbCp (some cp.toNat))) ∧
  (∀ bs : List Byte, (AsmLine.md4 bs).accesses =
    assemble [.init, .absorbBytes bs, .final, .rd (.digest 0), .rd (.digest 1), .rd (.digest 2), .rd (.digest 3)]) ∧
  (∀ cps : List Word, (AsmLine.ntlm cps).accesses =
    assemble ([.init, .absorbText cps, .final, .rd .status, .rd (.hex 0), .rd (.hex 1), .rd (.hex 2), .rd (.hex 3)] ++
      [.rd (.hex 4), .rd (.hex 5), .rd (.hex 6), .rd (.hex 7)])) ∧
  AsmLine.rdDigest.accesses = assemble [.rd (.digest 0), .rd (.digest 1), .rd (.digest 2), .rd (.digest 3)] ∧
  AsmLine.rdHex.accesses =
    assemble [.rd (.hex 0), .rd (.hex 1), .rd (.hex 2), .rd (.hex 3), .rd (.hex 4), .rd (.hex 5), .rd (.hex 6), .rd (.hex 7)]
end

