-- ==== Sys2Proof/Laws/State.lean ====
section
/-! SUPPORT. What each named update of State does to each field, one lemma per field, so that no later proof unfolds a
record update. The lemmas about `compress` are proved by rewriting, not by `rfl`: a comparison of `compress s` with `s` by
unfolding would run the mixer on unknown words. -/

namespace Sys2Proof.Machine

@[simp] theorem storeByte_S (b : Byte) (s : State) : (storeByte b s).S = s.S := rfl
@[simp] theorem storeByte_W (b : Byte) (s : State) : (storeByte b s).W = s.W := rfl
@[simp] theorem storeByte_BUF (b : Byte) (s : State) : (storeByte b s).BUF = s.BUF.set s.FILL.val b s.FILL.isLt := rfl
@[simp] theorem storeByte_FILL (b : Byte) (s : State) : (storeByte b s).FILL = s.FILL := rfl
@[simp] theorem storeByte_LEN (b : Byte) (s : State) : (storeByte b s).LEN = s.LEN := rfl
@[simp] theorem storeByte_DONE (b : Byte) (s : State) : (storeByte b s).DONE = s.DONE := rfl
@[simp] theorem storeByte_ERR_CMD (b : Byte) (s : State) : (storeByte b s).ERR_CMD = s.ERR_CMD := rfl
@[simp] theorem storeByte_ERR_ENC (b : Byte) (s : State) : (storeByte b s).ERR_ENC = s.ERR_ENC := rfl
@[simp] theorem storeByte_ERR_SEQ (b : Byte) (s : State) : (storeByte b s).ERR_SEQ = s.ERR_SEQ := rfl
@[simp] theorem storeByte_DATA (b : Byte) (s : State) : (storeByte b s).DATA = s.DATA := rfl
@[simp] theorem storeByte_pending (b : Byte) (s : State) : (storeByte b s).pending = s.pending := rfl
@[simp] theorem storeByte_observed (b : Byte) (s : State) : (storeByte b s).observed = s.observed := rfl
@[simp] theorem storeByte_draw (b : Byte) (s : State) : (storeByte b s).draw = s.draw := rfl

@[simp] theorem setFill_S (f : Fin 64) (s : State) : (setFill f s).S = s.S := rfl
@[simp] theorem setFill_W (f : Fin 64) (s : State) : (setFill f s).W = s.W := rfl
@[simp] theorem setFill_BUF (f : Fin 64) (s : State) : (setFill f s).BUF = s.BUF := rfl
@[simp] theorem setFill_FILL (f : Fin 64) (s : State) : (setFill f s).FILL = f := rfl
@[simp] theorem setFill_LEN (f : Fin 64) (s : State) : (setFill f s).LEN = s.LEN := rfl
@[simp] theorem setFill_DONE (f : Fin 64) (s : State) : (setFill f s).DONE = s.DONE := rfl
@[simp] theorem setFill_ERR_CMD (f : Fin 64) (s : State) : (setFill f s).ERR_CMD = s.ERR_CMD := rfl
@[simp] theorem setFill_ERR_ENC (f : Fin 64) (s : State) : (setFill f s).ERR_ENC = s.ERR_ENC := rfl
@[simp] theorem setFill_ERR_SEQ (f : Fin 64) (s : State) : (setFill f s).ERR_SEQ = s.ERR_SEQ := rfl
@[simp] theorem setFill_DATA (f : Fin 64) (s : State) : (setFill f s).DATA = s.DATA := rfl
@[simp] theorem setFill_pending (f : Fin 64) (s : State) : (setFill f s).pending = s.pending := rfl
@[simp] theorem setFill_observed (f : Fin 64) (s : State) : (setFill f s).observed = s.observed := rfl
@[simp] theorem setFill_draw (f : Fin 64) (s : State) : (setFill f s).draw = s.draw := rfl

@[simp] theorem addLength_S (s : State) : (addLength s).S = s.S := rfl
@[simp] theorem addLength_W (s : State) : (addLength s).W = s.W := rfl
@[simp] theorem addLength_BUF (s : State) : (addLength s).BUF = s.BUF := rfl
@[simp] theorem addLength_FILL (s : State) : (addLength s).FILL = s.FILL := rfl
@[simp] theorem addLength_LEN (s : State) : (addLength s).LEN = s.LEN + 8 := rfl
@[simp] theorem addLength_DONE (s : State) : (addLength s).DONE = s.DONE := rfl
@[simp] theorem addLength_ERR_CMD (s : State) : (addLength s).ERR_CMD = s.ERR_CMD := rfl
@[simp] theorem addLength_ERR_ENC (s : State) : (addLength s).ERR_ENC = s.ERR_ENC := rfl
@[simp] theorem addLength_ERR_SEQ (s : State) : (addLength s).ERR_SEQ = s.ERR_SEQ := rfl
@[simp] theorem addLength_DATA (s : State) : (addLength s).DATA = s.DATA := rfl
@[simp] theorem addLength_pending (s : State) : (addLength s).pending = s.pending := rfl
@[simp] theorem addLength_observed (s : State) : (addLength s).observed = s.observed := rfl
@[simp] theorem addLength_draw (s : State) : (addLength s).draw = s.draw := rfl

@[simp] theorem setData_S (v : Word) (s : State) : (setData v s).S = s.S := rfl
@[simp] theorem setData_W (v : Word) (s : State) : (setData v s).W = s.W := rfl
@[simp] theorem setData_BUF (v : Word) (s : State) : (setData v s).BUF = s.BUF := rfl
@[simp] theorem setData_FILL (v : Word) (s : State) : (setData v s).FILL = s.FILL := rfl
@[simp] theorem setData_LEN (v : Word) (s : State) : (setData v s).LEN = s.LEN := rfl
@[simp] theorem setData_DONE (v : Word) (s : State) : (setData v s).DONE = s.DONE := rfl
@[simp] theorem setData_ERR_CMD (v : Word) (s : State) : (setData v s).ERR_CMD = s.ERR_CMD := rfl
@[simp] theorem setData_ERR_ENC (v : Word) (s : State) : (setData v s).ERR_ENC = s.ERR_ENC := rfl
@[simp] theorem setData_ERR_SEQ (v : Word) (s : State) : (setData v s).ERR_SEQ = s.ERR_SEQ := rfl
@[simp] theorem setData_DATA (v : Word) (s : State) : (setData v s).DATA = v := rfl
@[simp] theorem setData_pending (v : Word) (s : State) : (setData v s).pending = s.pending := rfl
@[simp] theorem setData_observed (v : Word) (s : State) : (setData v s).observed = s.observed := rfl
@[simp] theorem setData_draw (v : Word) (s : State) : (setData v s).draw = s.draw := rfl

@[simp] theorem recordRead_S (v : Word) (s : State) : (recordRead v s).S = s.S := rfl
@[simp] theorem recordRead_W (v : Word) (s : State) : (recordRead v s).W = s.W := rfl
@[simp] theorem recordRead_BUF (v : Word) (s : State) : (recordRead v s).BUF = s.BUF := rfl
@[simp] theorem recordRead_FILL (v : Word) (s : State) : (recordRead v s).FILL = s.FILL := rfl
@[simp] theorem recordRead_LEN (v : Word) (s : State) : (recordRead v s).LEN = s.LEN := rfl
@[simp] theorem recordRead_DONE (v : Word) (s : State) : (recordRead v s).DONE = s.DONE := rfl
@[simp] theorem recordRead_ERR_CMD (v : Word) (s : State) : (recordRead v s).ERR_CMD = s.ERR_CMD := rfl
@[simp] theorem recordRead_ERR_ENC (v : Word) (s : State) : (recordRead v s).ERR_ENC = s.ERR_ENC := rfl
@[simp] theorem recordRead_ERR_SEQ (v : Word) (s : State) : (recordRead v s).ERR_SEQ = s.ERR_SEQ := rfl
@[simp] theorem recordRead_DATA (v : Word) (s : State) : (recordRead v s).DATA = s.DATA := rfl
@[simp] theorem recordRead_pending (v : Word) (s : State) : (recordRead v s).pending = s.pending := rfl
@[simp] theorem recordRead_observed (v : Word) (s : State) : (recordRead v s).observed = s.observed ++ [v] := rfl
@[simp] theorem recordRead_draw (v : Word) (s : State) : (recordRead v s).draw = s.draw := rfl

@[simp] theorem setPending_S (es : List Event) (s : State) : (setPending es s).S = s.S := rfl
@[simp] theorem setPending_W (es : List Event) (s : State) : (setPending es s).W = s.W := rfl
@[simp] theorem setPending_BUF (es : List Event) (s : State) : (setPending es s).BUF = s.BUF := rfl
@[simp] theorem setPending_FILL (es : List Event) (s : State) : (setPending es s).FILL = s.FILL := rfl
@[simp] theorem setPending_LEN (es : List Event) (s : State) : (setPending es s).LEN = s.LEN := rfl
@[simp] theorem setPending_DONE (es : List Event) (s : State) : (setPending es s).DONE = s.DONE := rfl
@[simp] theorem setPending_ERR_CMD (es : List Event) (s : State) : (setPending es s).ERR_CMD = s.ERR_CMD := rfl
@[simp] theorem setPending_ERR_ENC (es : List Event) (s : State) : (setPending es s).ERR_ENC = s.ERR_ENC := rfl
@[simp] theorem setPending_ERR_SEQ (es : List Event) (s : State) : (setPending es s).ERR_SEQ = s.ERR_SEQ := rfl
@[simp] theorem setPending_DATA (es : List Event) (s : State) : (setPending es s).DATA = s.DATA := rfl
@[simp] theorem setPending_pending (es : List Event) (s : State) : (setPending es s).pending = es := rfl
@[simp] theorem setPending_observed (es : List Event) (s : State) : (setPending es s).observed = s.observed := rfl
@[simp] theorem setPending_draw (es : List Event) (s : State) : (setPending es s).draw = s.draw := rfl

@[simp] theorem setDone_S (s : State) : (setDone s).S = s.S := rfl
@[simp] theorem setDone_W (s : State) : (setDone s).W = s.W := rfl
@[simp] theorem setDone_BUF (s : State) : (setDone s).BUF = s.BUF := rfl
@[simp] theorem setDone_FILL (s : State) : (setDone s).FILL = s.FILL := rfl
@[simp] theorem setDone_LEN (s : State) : (setDone s).LEN = s.LEN := rfl
@[simp] theorem setDone_DONE (s : State) : (setDone s).DONE = true := rfl
@[simp] theorem setDone_ERR_CMD (s : State) : (setDone s).ERR_CMD = s.ERR_CMD := rfl
@[simp] theorem setDone_ERR_ENC (s : State) : (setDone s).ERR_ENC = s.ERR_ENC := rfl
@[simp] theorem setDone_ERR_SEQ (s : State) : (setDone s).ERR_SEQ = s.ERR_SEQ := rfl
@[simp] theorem setDone_DATA (s : State) : (setDone s).DATA = s.DATA := rfl
@[simp] theorem setDone_pending (s : State) : (setDone s).pending = s.pending := rfl
@[simp] theorem setDone_observed (s : State) : (setDone s).observed = s.observed := rfl
@[simp] theorem setDone_draw (s : State) : (setDone s).draw = s.draw := rfl

@[simp] theorem setAccumulator_S (p q : Quad) (s : State) : (setAccumulator p q s).S = p := rfl
@[simp] theorem setAccumulator_W (p q : Quad) (s : State) : (setAccumulator p q s).W = q := rfl
@[simp] theorem setAccumulator_BUF (p q : Quad) (s : State) : (setAccumulator p q s).BUF = s.BUF := rfl
@[simp] theorem setAccumulator_FILL (p q : Quad) (s : State) : (setAccumulator p q s).FILL = s.FILL := rfl
@[simp] theorem setAccumulator_LEN (p q : Quad) (s : State) : (setAccumulator p q s).LEN = s.LEN := rfl
@[simp] theorem setAccumulator_DONE (p q : Quad) (s : State) : (setAccumulator p q s).DONE = s.DONE := rfl
@[simp] theorem setAccumulator_ERR_CMD (p q : Quad) (s : State) : (setAccumulator p q s).ERR_CMD = s.ERR_CMD := rfl
@[simp] theorem setAccumulator_ERR_ENC (p q : Quad) (s : State) : (setAccumulator p q s).ERR_ENC = s.ERR_ENC := rfl
@[simp] theorem setAccumulator_ERR_SEQ (p q : Quad) (s : State) : (setAccumulator p q s).ERR_SEQ = s.ERR_SEQ := rfl
@[simp] theorem setAccumulator_DATA (p q : Quad) (s : State) : (setAccumulator p q s).DATA = s.DATA := rfl
@[simp] theorem setAccumulator_pending (p q : Quad) (s : State) : (setAccumulator p q s).pending = s.pending := rfl
@[simp] theorem setAccumulator_observed (p q : Quad) (s : State) : (setAccumulator p q s).observed = s.observed := rfl
@[simp] theorem setAccumulator_draw (p q : Quad) (s : State) : (setAccumulator p q s).draw = s.draw := rfl

@[simp] theorem leaveScratch_S (s : State) : (leaveScratch s).S = s.S := rfl
@[simp] theorem leaveScratch_W (s : State) : (leaveScratch s).W = unspecifiedQuad s.draw := rfl
@[simp] theorem leaveScratch_BUF (s : State) : (leaveScratch s).BUF = unspecifiedBlock s.draw := rfl
@[simp] theorem leaveScratch_FILL (s : State) : (leaveScratch s).FILL = s.FILL := rfl
@[simp] theorem leaveScratch_LEN (s : State) : (leaveScratch s).LEN = s.LEN := rfl
@[simp] theorem leaveScratch_DONE (s : State) : (leaveScratch s).DONE = s.DONE := rfl
@[simp] theorem leaveScratch_ERR_CMD (s : State) : (leaveScratch s).ERR_CMD = s.ERR_CMD := rfl
@[simp] theorem leaveScratch_ERR_ENC (s : State) : (leaveScratch s).ERR_ENC = s.ERR_ENC := rfl
@[simp] theorem leaveScratch_ERR_SEQ (s : State) : (leaveScratch s).ERR_SEQ = s.ERR_SEQ := rfl
@[simp] theorem leaveScratch_DATA (s : State) : (leaveScratch s).DATA = s.DATA := rfl
@[simp] theorem leaveScratch_pending (s : State) : (leaveScratch s).pending = s.pending := rfl
@[simp] theorem leaveScratch_observed (s : State) : (leaveScratch s).observed = s.observed := rfl
@[simp] theorem leaveScratch_draw (s : State) : (leaveScratch s).draw = s.draw + 1 := rfl

@[simp] theorem beginMessage_S (s : State) : (beginMessage s).S = Quad.initial := rfl
@[simp] theorem beginMessage_W (s : State) : (beginMessage s).W = unspecifiedQuad s.draw := rfl
@[simp] theorem beginMessage_BUF (s : State) : (beginMessage s).BUF = unspecifiedBlock s.draw := rfl
@[simp] theorem beginMessage_FILL (s : State) : (beginMessage s).FILL = 0 := rfl
@[simp] theorem beginMessage_LEN (s : State) : (beginMessage s).LEN = 0 := rfl
@[simp] theorem beginMessage_DONE (s : State) : (beginMessage s).DONE = false := rfl
@[simp] theorem beginMessage_ERR_CMD (s : State) : (beginMessage s).ERR_CMD = false := rfl
@[simp] theorem beginMessage_ERR_ENC (s : State) : (beginMessage s).ERR_ENC = false := rfl
@[simp] theorem beginMessage_ERR_SEQ (s : State) : (beginMessage s).ERR_SEQ = false := rfl
@[simp] theorem beginMessage_DATA (s : State) : (beginMessage s).DATA = s.DATA := rfl
@[simp] theorem beginMessage_pending (s : State) : (beginMessage s).pending = s.pending := rfl
@[simp] theorem beginMessage_observed (s : State) : (beginMessage s).observed = s.observed := rfl
@[simp] theorem beginMessage_draw (s : State) : (beginMessage s).draw = s.draw + 1 := rfl

@[simp] theorem hardReset_S (s : State) : (hardReset s).S = Quad.initial := rfl
@[simp] theorem hardReset_W (s : State) : (hardReset s).W = ⟨0, 0, 0, 0⟩ := rfl
@[simp] theorem hardReset_BUF (s : State) : (hardReset s).BUF = Vector.replicate 64 0 := rfl
@[simp] theorem hardReset_FILL (s : State) : (hardReset s).FILL = 0 := rfl
@[simp] theorem hardReset_LEN (s : State) : (hardReset s).LEN = 0 := rfl
@[simp] theorem hardReset_DONE (s : State) : (hardReset s).DONE = false := rfl
@[simp] theorem hardReset_ERR_CMD (s : State) : (hardReset s).ERR_CMD = false := rfl
@[simp] theorem hardReset_ERR_ENC (s : State) : (hardReset s).ERR_ENC = false := rfl
@[simp] theorem hardReset_ERR_SEQ (s : State) : (hardReset s).ERR_SEQ = false := rfl
@[simp] theorem hardReset_DATA (s : State) : (hardReset s).DATA = 0 := rfl
@[simp] theorem hardReset_pending (s : State) : (hardReset s).pending = s.pending := rfl
@[simp] theorem hardReset_observed (s : State) : (hardReset s).observed = s.observed := rfl
@[simp] theorem hardReset_draw (s : State) : (hardReset s).draw = s.draw := rfl

@[simp] theorem compress_S (s : State) : (compress s).S = compressBlock s.S s.BUF := by rw [compress, setAccumulator_S]
@[simp] theorem compress_W (s : State) : (compress s).W = mixBlock s.S s.BUF := by rw [compress, setAccumulator_W]
@[simp] theorem compress_BUF (s : State) : (compress s).BUF = s.BUF := by rw [compress, setAccumulator_BUF]
@[simp] theorem compress_FILL (s : State) : (compress s).FILL = s.FILL := by rw [compress, setAccumulator_FILL]
@[simp] theorem compress_LEN (s : State) : (compress s).LEN = s.LEN := by rw [compress, setAccumulator_LEN]
@[simp] theorem compress_DONE (s : State) : (compress s).DONE = s.DONE := by rw [compress, setAccumulator_DONE]
@[simp] theorem compress_ERR_CMD (s : State) : (compress s).ERR_CMD = s.ERR_CMD := by rw [compress, setAccumulator_ERR_CMD]
@[simp] theorem compress_ERR_ENC (s : State) : (compress s).ERR_ENC = s.ERR_ENC := by rw [compress, setAccumulator_ERR_ENC]
@[simp] theorem compress_ERR_SEQ (s : State) : (compress s).ERR_SEQ = s.ERR_SEQ := by rw [compress, setAccumulator_ERR_SEQ]
@[simp] theorem compress_DATA (s : State) : (compress s).DATA = s.DATA := by rw [compress, setAccumulator_DATA]
@[simp] theorem compress_pending (s : State) : (compress s).pending = s.pending := by rw [compress, setAccumulator_pending]
@[simp] theorem compress_observed (s : State) : (compress s).observed = s.observed := by rw [compress, setAccumulator_observed]
@[simp] theorem compress_draw (s : State) : (compress s).draw = s.draw := by rw [compress, setAccumulator_draw]

@[simp] theorem raiseError_cmd_ERR_CMD (s : State) : (raiseError .cmd s).ERR_CMD = true := rfl
@[simp] theorem raiseError_cmd_ERR_SEQ (s : State) : (raiseError .cmd s).ERR_SEQ = s.ERR_SEQ := rfl
@[simp] theorem raiseError_cmd_ERR_ENC (s : State) : (raiseError .cmd s).ERR_ENC = s.ERR_ENC := rfl
@[simp] theorem raiseError_seq_ERR_SEQ (s : State) : (raiseError .seq s).ERR_SEQ = true := rfl
@[simp] theorem raiseError_seq_ERR_CMD (s : State) : (raiseError .seq s).ERR_CMD = s.ERR_CMD := rfl
@[simp] theorem raiseError_seq_ERR_ENC (s : State) : (raiseError .seq s).ERR_ENC = s.ERR_ENC := rfl
@[simp] theorem raiseError_enc_ERR_ENC (s : State) : (raiseError .enc s).ERR_ENC = true := rfl
@[simp] theorem raiseError_enc_ERR_CMD (s : State) : (raiseError .enc s).ERR_CMD = s.ERR_CMD := rfl
@[simp] theorem raiseError_enc_ERR_SEQ (s : State) : (raiseError .enc s).ERR_SEQ = s.ERR_SEQ := rfl
@[simp] theorem raiseError_S (k : ErrorKind) (s : State) : (raiseError k s).S = s.S := by cases k <;> rfl
@[simp] theorem raiseError_W (k : ErrorKind) (s : State) : (raiseError k s).W = s.W := by cases k <;> rfl
@[simp] theorem raiseError_BUF (k : ErrorKind) (s : State) : (raiseError k s).BUF = s.BUF := by cases k <;> rfl
@[simp] theorem raiseError_FILL (k : ErrorKind) (s : State) : (raiseError k s).FILL = s.FILL := by cases k <;> rfl
@[simp] theorem raiseError_LEN (k : ErrorKind) (s : State) : (raiseError k s).LEN = s.LEN := by cases k <;> rfl
@[simp] theorem raiseError_DONE (k : ErrorKind) (s : State) : (raiseError k s).DONE = s.DONE := by cases k <;> rfl
@[simp] theorem raiseError_DATA (k : ErrorKind) (s : State) : (raiseError k s).DATA = s.DATA := by cases k <;> rfl
@[simp] theorem raiseError_pending (k : ErrorKind) (s : State) : (raiseError k s).pending = s.pending := by cases k <;> rfl
@[simp] theorem raiseError_observed (k : ErrorKind) (s : State) : (raiseError k s).observed = s.observed := by cases k <;> rfl
@[simp] theorem raiseError_draw (k : ErrorKind) (s : State) : (raiseError k s).draw = s.draw := by cases k <;> rfl

@[simp] theorem issueCommand_S (s : State) (w : Word) : (s.issueCommand w).S = s.S := rfl
@[simp] theorem issueCommand_W (s : State) (w : Word) : (s.issueCommand w).W = s.W := rfl
@[simp] theorem issueCommand_BUF (s : State) (w : Word) : (s.issueCommand w).BUF = s.BUF := rfl
@[simp] theorem issueCommand_FILL (s : State) (w : Word) : (s.issueCommand w).FILL = s.FILL := rfl
@[simp] theorem issueCommand_LEN (s : State) (w : Word) : (s.issueCommand w).LEN = s.LEN := rfl
@[simp] theorem issueCommand_DONE (s : State) (w : Word) : (s.issueCommand w).DONE = s.DONE := rfl
@[simp] theorem issueCommand_ERR_CMD (s : State) (w : Word) : (s.issueCommand w).ERR_CMD = s.ERR_CMD := rfl
@[simp] theorem issueCommand_ERR_ENC (s : State) (w : Word) : (s.issueCommand w).ERR_ENC = s.ERR_ENC := rfl
@[simp] theorem issueCommand_ERR_SEQ (s : State) (w : Word) : (s.issueCommand w).ERR_SEQ = s.ERR_SEQ := rfl
@[simp] theorem issueCommand_DATA (s : State) (w : Word) : (s.issueCommand w).DATA = s.DATA := rfl
@[simp] theorem issueCommand_pending (s : State) (w : Word) : (s.issueCommand w).pending = commandWrite w :: s.pending := rfl
@[simp] theorem issueCommand_observed (s : State) (w : Word) : (s.issueCommand w).observed = s.observed := rfl
@[simp] theorem issueCommand_draw (s : State) (w : Word) : (s.issueCommand w).draw = s.draw := rfl

/-- What a register reads does not depend on the host port. -/
@[simp] theorem readReg_setPending (r : Reg) (es : List Event) (s : State) : readReg r (setPending es s) = readReg r s := by
  cases r <;> rfl

@[simp] theorem readReg_recordRead (r : Reg) (v : Word) (s : State) : readReg r (recordRead v s) = readReg r s := by
  cases r <;> rfl

/-- A flag that is set stays set when an error is raised (R205). -/
theorem errorFlag_raiseError_mono (k j : ErrorKind) (s : State) (h : errorFlag k s = true) :
    errorFlag k (raiseError j s) = true := by
  cases k <;> cases j <;> simp_all [errorFlag, raiseError]

@[simp] theorem errorFlag_raiseError_self (k : ErrorKind) (s : State) : errorFlag k (raiseError k s) = true := by
  cases k <;> rfl

/-- Raising one error leaves the other flags alone (R200). -/
theorem errorFlag_raiseError_other {k j : ErrorKind} (h : k ≠ j) (s : State) :
    errorFlag k (raiseError j s) = errorFlag k s := by
  cases k <;> cases j <;> first | contradiction | rfl

end Sys2Proof.Machine
end

