-- ==== Sys2Proof/Laws/Ops.lean ====
section
/-! SUPPORT. What the shared operations can do, said once: the two cases of `appendRaw`, what the byte path never touches,
LEN under message and padding bytes, and the composition of appends. -/

namespace Sys2Proof.Machine

/-- The fields of the block and its port that the byte path does not write, LEN apart. -/
structure SameAside (s t : State) : Prop where
  done : t.DONE = s.DONE
  errCmd : t.ERR_CMD = s.ERR_CMD
  errEnc : t.ERR_ENC = s.ERR_ENC
  errSeq : t.ERR_SEQ = s.ERR_SEQ
  data : t.DATA = s.DATA
  pending : t.pending = s.pending
  observed : t.observed = s.observed

theorem SameAside.refl (s : State) : SameAside s s := ⟨rfl, rfl, rfl, rfl, rfl, rfl, rfl⟩

theorem SameAside.trans {s t u : State} (h : SameAside s t) (h' : SameAside t u) : SameAside s u :=
  ⟨h'.done.trans h.done, h'.errCmd.trans h.errCmd, h'.errEnc.trans h.errEnc, h'.errSeq.trans h.errSeq,
    h'.data.trans h.data, h'.pending.trans h.pending, h'.observed.trans h.observed⟩

/-- A byte that does not fill the block is stored and counted (R140). -/
theorem appendRaw_of_lt (b : Byte) (s : State) (h : s.FILL.val + 1 < 64) :
    appendRaw b s = setFill ⟨s.FILL.val + 1, h⟩ (storeByte b s) := by
  simp only [appendRaw, h, dite_true]

/-- The block's 64th byte compresses the block (R140). -/
theorem appendRaw_of_full (b : Byte) (s : State) (h : ¬ s.FILL.val + 1 < 64) :
    appendRaw b s = setFill 0 (leaveScratch (compress (storeByte b s))) := by
  simp only [appendRaw, h, dite_false]

@[simp] theorem appendRaw_LEN (b : Byte) (s : State) : (appendRaw b s).LEN = s.LEN := by
  by_cases h : s.FILL.val + 1 < 64
  · rw [appendRaw_of_lt b s h, setFill_LEN, storeByte_LEN]
  · rw [appendRaw_of_full b s h, setFill_LEN, leaveScratch_LEN, compress_LEN, storeByte_LEN]

theorem appendRaw_BUF (b : Byte) (s : State) (h : s.FILL.val + 1 < 64) :
    (appendRaw b s).BUF = s.BUF.set s.FILL.val b s.FILL.isLt := by
  rw [appendRaw_of_lt b s h, setFill_BUF, storeByte_BUF]

theorem appendRaw_FILL (b : Byte) (s : State) : (appendRaw b s).FILL.val = (s.FILL.val + 1) % 64 := by
  have := s.FILL.isLt
  by_cases h : s.FILL.val + 1 < 64
  · rw [appendRaw_of_lt b s h, setFill_FILL, Nat.mod_eq_of_lt h]
  · rw [appendRaw_of_full b s h, setFill_FILL, show s.FILL.val = 63 by omega]; rfl

theorem appendRaw_S (b : Byte) (s : State) :
    (appendRaw b s).S =
      if s.FILL.val + 1 < 64 then s.S else compressBlock s.S (s.BUF.set s.FILL.val b s.FILL.isLt) := by
  by_cases h : s.FILL.val + 1 < 64
  · rw [appendRaw_of_lt b s h, setFill_S, storeByte_S, if_pos h]
  · rw [appendRaw_of_full b s h, setFill_S, leaveScratch_S, compress_S, storeByte_S, storeByte_BUF, if_neg h]

theorem setFill_sameAside (f : Fin 64) (s : State) : SameAside s (setFill f s) := ⟨rfl, rfl, rfl, rfl, rfl, rfl, rfl⟩

theorem storeByte_sameAside (b : Byte) (s : State) : SameAside s (storeByte b s) :=
  ⟨rfl, rfl, rfl, rfl, rfl, rfl, rfl⟩

theorem compress_sameAside (s : State) : SameAside s (compress s) :=
  ⟨compress_DONE s, compress_ERR_CMD s, compress_ERR_ENC s, compress_ERR_SEQ s, compress_DATA s, compress_pending s,
    compress_observed s⟩

theorem leaveScratch_sameAside (s : State) : SameAside s (leaveScratch s) := ⟨rfl, rfl, rfl, rfl, rfl, rfl, rfl⟩

theorem appendRaw_sameAside (b : Byte) (s : State) : SameAside s (appendRaw b s) := by
  by_cases h : s.FILL.val + 1 < 64
  · rw [appendRaw_of_lt b s h]; exact (storeByte_sameAside b s).trans (setFill_sameAside _ _)
  · rw [appendRaw_of_full b s h]
    exact (((storeByte_sameAside b s).trans (compress_sameAside _)).trans (leaveScratch_sameAside _)).trans
      (setFill_sameAside _ _)

theorem addLength_sameAside (s : State) : SameAside s (addLength s) := ⟨rfl, rfl, rfl, rfl, rfl, rfl, rfl⟩

theorem appendMsg_sameAside (b : Byte) (s : State) : SameAside s (appendMsg b s) :=
  (appendRaw_sameAside b s).trans (addLength_sameAside _)

@[simp] theorem appendMsg_LEN (b : Byte) (s : State) : (appendMsg b s).LEN = s.LEN + 8 := by
  rw [appendMsg, addLength_LEN, appendRaw_LEN]

@[simp] theorem appendMsg_S (b : Byte) (s : State) : (appendMsg b s).S = (appendRaw b s).S := by
  rw [appendMsg, addLength_S]
@[simp] theorem appendMsg_W (b : Byte) (s : State) : (appendMsg b s).W = (appendRaw b s).W := by
  rw [appendMsg, addLength_W]
@[simp] theorem appendMsg_FILL (b : Byte) (s : State) : (appendMsg b s).FILL = (appendRaw b s).FILL := by
  rw [appendMsg, addLength_FILL]
@[simp] theorem appendMsg_BUF (b : Byte) (s : State) : (appendMsg b s).BUF = (appendRaw b s).BUF := by
  rw [appendMsg, addLength_BUF]

@[simp] theorem appendRaws_nil (s : State) : appendRaws [] s = s := rfl
@[simp] theorem appendRaws_cons (b : Byte) (bs : List Byte) (s : State) :
    appendRaws (b :: bs) s = appendRaws bs (appendRaw b s) := rfl
@[simp] theorem appendMsgs_nil (s : State) : appendMsgs [] s = s := rfl
@[simp] theorem appendMsgs_cons (b : Byte) (bs : List Byte) (s : State) :
    appendMsgs (b :: bs) s = appendMsgs bs (appendMsg b s) := rfl

theorem appendRaws_append (as bs : List Byte) (s : State) :
    appendRaws (as ++ bs) s = appendRaws bs (appendRaws as s) := List.foldl_append ..

theorem appendMsgs_append (as bs : List Byte) (s : State) :
    appendMsgs (as ++ bs) s = appendMsgs bs (appendMsgs as s) := List.foldl_append ..

theorem appendRaws_sameAside (bs : List Byte) (s : State) : SameAside s (appendRaws bs s) := by
  induction bs generalizing s with
  | nil => exact .refl s
  | cons b bs ih => exact (appendRaw_sameAside b s).trans (ih _)

theorem appendMsgs_sameAside (bs : List Byte) (s : State) : SameAside s (appendMsgs bs s) := by
  induction bs generalizing s with
  | nil => exact .refl s
  | cons b bs ih => exact (appendMsg_sameAside b s).trans (ih _)

@[simp] theorem appendRaws_LEN (bs : List Byte) (s : State) : (appendRaws bs s).LEN = s.LEN := by
  induction bs generalizing s with
  | nil => rfl
  | cons b bs ih => simp [ih]

theorem appendRaws_FILL (bs : List Byte) (s : State) :
    (appendRaws bs s).FILL.val = (s.FILL.val + bs.length) % 64 := by
  induction bs generalizing s with
  | nil => have := s.FILL.isLt; simp; omega
  | cons b bs ih => rw [appendRaws_cons, ih, appendRaw_FILL]; simp; omega

/-- Write LEN, and nothing else. -/
def setLength (n : Length) (s : State) : State := { s with LEN := n }

theorem addLength_eq (s : State) : addLength s = setLength (s.LEN + 8) s := rfl

theorem setLength_setLength (n k : Length) (s : State) : setLength n (setLength k s) = setLength n s := rfl

theorem compress_setLength (n : Length) (s : State) : compress (setLength n s) = setLength n (compress s) := by
  generalize hp : compressBlock s.S s.BUF = p
  generalize hq : mixBlock s.S s.BUF = q
  have h1 : compress s = setAccumulator p q s := by rw [compress, hp, hq]
  have h2 : compress (setLength n s) = setAccumulator p q (setLength n s) := by
    rw [compress, show (setLength n s).S = s.S from rfl, show (setLength n s).BUF = s.BUF from rfl, hp, hq]
  rw [h1, h2]; rfl

/-- LEN plays no part in the byte path (R141: COMPRESS does not read LEN). -/
theorem appendRaw_setLength (b : Byte) (s : State) (n : Length) :
    appendRaw b (setLength n s) = setLength n (appendRaw b s) := by
  by_cases h : s.FILL.val + 1 < 64
  · rw [appendRaw_of_lt b s h, appendRaw_of_lt b (setLength n s) h]; rfl
  · rw [appendRaw_of_full b s h, appendRaw_of_full b (setLength n s) h,
      show storeByte b (setLength n s) = setLength n (storeByte b s) from rfl, compress_setLength]
    generalize compress (storeByte b s) = u
    rfl

theorem appendRaws_setLength (bs : List Byte) (s : State) (n : Length) :
    appendRaws bs (setLength n s) = setLength n (appendRaws bs s) := by
  induction bs generalizing s with
  | nil => rfl
  | cons b bs ih => rw [appendRaws_cons, appendRaw_setLength, ih, appendRaws_cons]

/-- Message bytes go the way of padding bytes, and LEN counts them (R141). -/
theorem appendMsgs_eq (bs : List Byte) (s : State) :
    appendMsgs bs s = setLength (s.LEN + BitVec.ofNat 64 (8 * bs.length)) (appendRaws bs s) := by
  induction bs generalizing s with
  | nil => simp [setLength]
  | cons b bs ih =>
    rw [appendMsgs_cons, ih, appendMsg_LEN, appendMsg, addLength_eq, appendRaw_LEN, appendRaws_setLength,
      setLength_setLength, appendRaws_cons]
    congr 1
    apply BitVec.eq_of_toNat_eq
    simp
    omega

theorem appendMsgs_LEN (bs : List Byte) (s : State) :
    (appendMsgs bs s).LEN = s.LEN + BitVec.ofNat 64 (8 * bs.length) := by
  rw [appendMsgs_eq]; generalize appendRaws bs s = u; rfl

theorem appendMsgs_FILL (bs : List Byte) (s : State) :
    (appendMsgs bs s).FILL.val = (s.FILL.val + bs.length) % 64 := by
  rw [appendMsgs_eq, ← appendRaws_FILL]; generalize appendRaws bs s = u; rfl

@[simp] theorem appendMsgs_S (bs : List Byte) (s : State) : (appendMsgs bs s).S = (appendRaws bs s).S := by
  rw [appendMsgs_eq]; generalize appendRaws bs s = u; rfl
@[simp] theorem appendMsgs_BUF (bs : List Byte) (s : State) : (appendMsgs bs s).BUF = (appendRaws bs s).BUF := by
  rw [appendMsgs_eq]; generalize appendRaws bs s = u; rfl

theorem padZeros_sameAside (n : Nat) (s : State) : SameAside s (padZeros n s) := by
  induction n generalizing s with
  | zero => exact .refl s
  | succ n ih =>
    unfold padZeros; split
    · exact .refl s
    · exact (appendRaw_sameAside _ s).trans (ih _)

/-- The padding loop, given fuel enough for the zeros it needs, appends exactly them (R145 step 3, R146). -/
theorem padZeros_eq (n : Nat) (s : State) (h : (120 - s.FILL.val) % 64 ≤ n) :
    padZeros n s = appendRaws (List.replicate ((120 - s.FILL.val) % 64) 0x00) s := by
  have hl := s.FILL.isLt
  induction n generalizing s with
  | zero =>
    have : (120 - s.FILL.val) % 64 = 0 := by omega
    simp [padZeros, this]
  | succ n ih =>
    unfold padZeros
    split
    · next h56 => simp [h56]
    · next h56 =>
      have hne : s.FILL.val ≠ 56 := fun e => h56 (Fin.ext e)
      have hf := appendRaw_FILL 0x00 s
      have hk : (120 - s.FILL.val) % 64 = (120 - (appendRaw 0x00 s).FILL.val) % 64 + 1 := by omega
      rw [ih _ (by omega) (appendRaw 0x00 s).FILL.isLt, hk, List.replicate_succ, appendRaws_cons]

@[simp] theorem lengthBytes_length (L : Length) : (lengthBytes L).length = 8 := by simp [lengthBytes]

/-- FINAL's padding is one run of padding bytes: `0x80`, the zeros, the length (R145, R146). -/
theorem padMessage_eq (s : State) :
    padMessage s =
      appendRaws (0x80 :: List.replicate ((119 - s.FILL.val) % 64) 0x00 ++ lengthBytes s.LEN) s := by
  have hf := appendRaw_FILL 0x80 s
  have hl := s.FILL.isLt
  unfold padMessage
  rw [padZeros_eq _ _ (by omega), appendRaws_append, appendRaws_cons]
  congr 3
  omega

theorem padMessage_sameAside (s : State) : SameAside s (padMessage s) := by
  rw [padMessage_eq]; exact appendRaws_sameAside _ s

@[simp] theorem padMessage_LEN (s : State) : (padMessage s).LEN = s.LEN := by rw [padMessage_eq]; simp

/-- After FINAL's padding the block buffer is empty (R145). -/
theorem padMessage_FILL (s : State) : (padMessage s).FILL = 0 := by
  have hl := s.FILL.isLt
  rw [padMessage_eq]
  apply Fin.ext
  rw [appendRaws_FILL]
  simp
  omega

theorem whileAccepting_done (act : State → State) {s : State} (h : s.DONE = true) :
    whileAccepting act s = raiseError .seq s := by simp [whileAccepting, h]

theorem whileAccepting_accepting (act : State → State) {s : State} (h : s.DONE = false) :
    whileAccepting act s = act s := by simp [whileAccepting, h]

end Sys2Proof.Machine
end

