-- ==== Sys2Proof/Laws/Message.lean ====
section
/-! SUPPORT. The byte path said once over whole byte lists: the bytes in the current block, and what appending a list does
to S, FILL and them (R140, R150). -/

namespace Sys2Proof.Machine

/-- The bytes of the current block that are already in BUF: `BUF[0..FILL-1]`. -/
def currentBytes (s : State) : List Byte := s.BUF.toList.take s.FILL.val

@[simp] theorem currentBytes_length (s : State) : (currentBytes s).length = s.FILL.val := by
  simp [currentBytes]

theorem currentBytes_setFill_storeByte (b : Byte) (s : State) (h : s.FILL.val + 1 < 64) :
    currentBytes (setFill ⟨s.FILL.val + 1, h⟩ (storeByte b s)) = currentBytes s ++ [b] := by
  simp only [currentBytes, setFill_BUF, storeByte_BUF, setFill_FILL, Vector.toList_set]
  rw [List.take_add_one, List.take_set_of_le (Nat.le_refl _), List.getElem?_set_self (by simp), Option.toList_some]

/-- A block whose bytes begin a sequence is the block of that sequence. -/
theorem toBlock_append {blk : Vector Byte 64} {as : List Byte} (bs : List Byte) (h : blk.toList = as) :
    toBlock (as ++ bs) = blk := by
  have hl : as.length = 64 := by rw [← h]; simp
  apply Vector.toArray_inj.mp
  simp only [toBlock, List.take_left' hl, List.length_append, hl]
  rw [show 64 - (64 + bs.length) = 0 by omega, ← h, List.replicate_zero, List.append_nil]
  exact Array.toArray_toList

theorem toBlock_eq_of_toList {blk : Vector Byte 64} {bs : List Byte} (h : blk.toList = bs) : toBlock bs = blk := by
  simpa using toBlock_append [] h

/-- Only the first 64 bytes of a sequence make its block. -/
theorem toBlock_append_of_length {as : List Byte} (h : as.length = 64) (bs : List Byte) :
    toBlock (as ++ bs) = toBlock as := by
  have ha : (⟨as.toArray, by simp [h]⟩ : Vector Byte 64).toList = as := by simp [Vector.toList]
  rw [toBlock_append bs ha, toBlock_eq_of_toList ha]

theorem storeByte_full_block (b : Byte) (s : State) (h : s.FILL.val = 63) :
    toBlock (currentBytes s ++ [b]) = s.BUF.set s.FILL.val b s.FILL.isLt := by
  apply toBlock_eq_of_toList
  rw [Vector.toList_set, currentBytes, h]
  apply List.ext_getElem
  · simp
  · intro i h1 h2
    simp at h1
    rw [List.getElem_set]
    by_cases hi : i = 63
    · subst hi; simp
    · rw [if_neg (by omega), List.getElem_append_left (by simp; omega)]; simp

theorem currentBytes_of_FILL_zero {s : State} (h : s.FILL = 0) : currentBytes s = [] := by
  simp [currentBytes, h]

@[simp] theorem compressBlocks_zero (bs : List Byte) (S : Quad) : compressBlocks 0 bs S = S := by
  rw [compressBlocks, blocksOf, List.foldl_nil]

theorem compressBlocks_succ (n : Nat) (bs : List Byte) (S : Quad) :
    compressBlocks (n + 1) bs S = compressBlocks n (bs.drop 64) (compressBlock S (toBlock bs)) := by
  rw [compressBlocks, blocksOf, List.foldl_cons, compressBlocks]

/-- Appending a byte list compresses the whole blocks of the current bytes and the list, and leaves the rest in BUF. -/
theorem appendRaws_chain (bs : List Byte) (s : State) :
    (appendRaws bs s).S = compressBlocks ((s.FILL.val + bs.length) / 64) (currentBytes s ++ bs) s.S ∧
    currentBytes (appendRaws bs s) =
      (currentBytes s ++ bs).drop (64 * ((s.FILL.val + bs.length) / 64)) := by
  induction bs generalizing s with
  | nil =>
    have := s.FILL.isLt
    have h0 : s.FILL.val / 64 = 0 := by omega
    simp [h0]
  | cons b bs ih =>
    have hl := s.FILL.isLt
    rw [appendRaws_cons]
    by_cases h : s.FILL.val + 1 < 64
    · have hc := currentBytes_setFill_storeByte b s h
      rw [← appendRaw_of_lt b s h] at hc
      have hS : (appendRaw b s).S = s.S := by rw [appendRaw_S, if_pos h]
      have hF : (appendRaw b s).FILL.val = s.FILL.val + 1 := by rw [appendRaw_FILL]; omega
      have hn : s.FILL.val + 1 + bs.length = s.FILL.val + (b :: bs).length := by simp; omega
      have hi := ih (appendRaw b s)
      rw [hc, hS, hF, hn, List.append_assoc, List.singleton_append] at hi
      exact hi
    · have h63 : s.FILL.val = 63 := by omega
      have hF : (appendRaw b s).FILL.val = 0 := by rw [appendRaw_FILL]; omega
      have hc : currentBytes (appendRaw b s) = [] := currentBytes_of_FILL_zero (Fin.ext hF)
      have hS : (appendRaw b s).S = compressBlock s.S (toBlock (currentBytes s ++ [b])) := by
        rw [appendRaw_S, if_neg h, storeByte_full_block b s h63]
      have hi := ih (appendRaw b s)
      rw [hc, hS, hF] at hi
      have hn : (s.FILL.val + (b :: bs).length) / 64 = (0 + bs.length) / 64 + 1 := by simp; omega
      have hlen : (currentBytes s ++ [b]).length = 64 := by simp [h63]
      have happ : currentBytes s ++ b :: bs = (currentBytes s ++ [b]) ++ bs := by simp
      rw [hn, happ, compressBlocks_succ, toBlock_append_of_length hlen, List.drop_left' hlen]
      refine ⟨by simpa using hi.1, ?_⟩
      rw [Nat.mul_add, Nat.add_comm, List.drop_append, hlen, Nat.mul_one,
        List.drop_eq_nil_of_le (by omega), hi.2]
      simp

theorem appendMsgs_chain (bs : List Byte) (s : State) :
    (appendMsgs bs s).S = compressBlocks ((s.FILL.val + bs.length) / 64) (currentBytes s ++ bs) s.S ∧
    currentBytes (appendMsgs bs s) =
      (currentBytes s ++ bs).drop (64 * ((s.FILL.val + bs.length) / 64)) := by
  have h := appendRaws_chain bs s
  refine ⟨by rw [appendMsgs_S]; exact h.1, ?_⟩
  have hF : (appendMsgs bs s).FILL = (appendRaws bs s).FILL := by
    apply Fin.ext; rw [appendMsgs_FILL, appendRaws_FILL]
  rw [← h.2, currentBytes, appendMsgs_BUF, hF, currentBytes]

/-- Appended bytes that do not fill the block leave every position of BUF outside their own as it was (R140). -/
theorem appendRaws_BUF_kept (bs : List Byte) (s : State) (h : s.FILL.val + bs.length < 64) (i : Fin 64)
    (hi : i.val < s.FILL.val ∨ s.FILL.val + bs.length ≤ i.val) : (appendRaws bs s).BUF[i] = s.BUF[i] := by
  induction bs generalizing s with
  | nil => rfl
  | cons b bs ih =>
    simp only [List.length_cons] at h hi
    have hF := appendRaw_FILL b s
    rw [appendRaws_cons, ih (appendRaw b s) (by omega) (by omega), Fin.getElem_fin, Fin.getElem_fin]
    simp only [appendRaw_BUF b s (by omega)]
    rw [Vector.getElem_set_ne _ _ (by omega)]

/-- The byte path reads and writes neither DATA nor the accesses still to come. -/
theorem appendRaw_setData_setPending (b : Byte) (s : State) (d : Word) (es : List Event) :
    appendRaw b (setData d (setPending es s)) = setData d (setPending es (appendRaw b s)) := by
  by_cases h : s.FILL.val + 1 < 64
  · rw [appendRaw_of_lt b s h, appendRaw_of_lt b (setData d (setPending es s)) h]; rfl
  · rw [appendRaw_of_full b s h, appendRaw_of_full b (setData d (setPending es s)) h,
      show storeByte b (setData d (setPending es s)) = setData d (setPending es (storeByte b s)) from rfl]
    generalize storeByte b s = u
    simp only [compress, show (setData d (setPending es u)).S = u.S from rfl,
      show (setData d (setPending es u)).BUF = u.BUF from rfl]
    generalize compressBlock u.S u.BUF = p
    generalize mixBlock u.S u.BUF = q
    rfl

theorem appendMsgs_setData_setPending (bs : List Byte) (s : State) (d : Word) (es : List Event) :
    appendMsgs bs (setData d (setPending es s)) = setData d (setPending es (appendMsgs bs s)) := by
  induction bs generalizing s with
  | nil => rfl
  | cons b bs ih =>
    rw [appendMsgs_cons, appendMsgs_cons, ← ih, appendMsg, appendRaw_setData_setPending, appendMsg]; rfl

end Sys2Proof.Machine
end

