-- ==== Sys2Proof/Laws/Step.lean ====
section
/-! SUPPORT. What a step can do, said once: each command's meaning as one next state, which offsets are CMD and DATA, and the
inversion of `perform` and `step`. -/

namespace Sys2Proof.Machine

/-- The one next state of a command. -/
def afterCommand (i : Instr) (s : State) : State :=
  match i with
  | .init => beginMessage s
  | .absorb c => whileAccepting (fun s => appendMsgs (absorbBytes c s.DATA) s) s
  | .absorbCp => whileAccepting absorbCodePoint s
  | .final => whileAccepting (fun s => setDone (padMessage s)) s

theorem exec_eq (i : Instr) (s : State) : exec i s = .next (afterCommand i s) := by cases i <;> rfl

theorem absorbCodePoint_valid {s : State} (h : validCodePoint s.DATA = true) :
    absorbCodePoint s = appendMsgs (utf16leBytes s.DATA) s := by simp [absorbCodePoint, encodeCodePoint, h]

theorem absorbCodePoint_invalid {s : State} (h : validCodePoint s.DATA = false) :
    absorbCodePoint s = raiseError .enc s := by simp [absorbCodePoint, encodeCodePoint, h]

/-- The code points ABSORB_CP rejects (R170). -/
theorem validCodePoint_eq_false_iff (cp : Word) :
    validCodePoint cp = false ↔ (0xD800 ≤ cp.toNat ∧ cp.toNat ≤ 0xDFFF) ∨ 0x10FFFF < cp.toNat := by
  simp [validCodePoint, BitVec.le_def]
  omega

theorem afterCommand_done {i : Instr} {s : State} (h : s.DONE = true) (hi : i ≠ .init) :
    afterCommand i s = raiseError .seq s := by
  cases i with
  | init => exact absurd rfl hi
  | absorb c => simp only [afterCommand, whileAccepting_done _ h]
  | absorbCp => simp only [afterCommand, whileAccepting_done _ h]
  | final => simp only [afterCommand, whileAccepting_done _ h]

/-- Everything a command can do: INIT, one of the two errors, message bytes appended, or FINAL's padding. -/
theorem afterCommand_cases (i : Instr) (s : State) :
    (i = .init ∧ afterCommand i s = beginMessage s) ∨
    (i ≠ .init ∧ s.DONE = true ∧ afterCommand i s = raiseError .seq s) ∨
    (i = .absorbCp ∧ s.DONE = false ∧ validCodePoint s.DATA = false ∧ afterCommand i s = raiseError .enc s) ∨
    (∃ bs, (∃ c, i = .absorb c ∧ bs = absorbBytes c s.DATA) ∧ s.DONE = false ∧ afterCommand i s = appendMsgs bs s) ∨
    (∃ bs, i = .absorbCp ∧ validCodePoint s.DATA = true ∧ bs = utf16leBytes s.DATA ∧ s.DONE = false ∧
      afterCommand i s = appendMsgs bs s) ∨
    (i = .final ∧ s.DONE = false ∧ afterCommand i s = setDone (padMessage s)) := by
  by_cases hi : i = .init
  · subst hi; exact .inl ⟨rfl, rfl⟩
  · by_cases hd : s.DONE = true
    · exact .inr (.inl ⟨hi, hd, afterCommand_done hd hi⟩)
    · have hd : s.DONE = false := by simpa using hd
      cases i with
      | init => exact absurd rfl hi
      | absorb c =>
        refine .inr (.inr (.inr (.inl ⟨_, ⟨c, rfl, rfl⟩, hd, ?_⟩)))
        simp only [afterCommand, whileAccepting_accepting _ hd]
      | absorbCp =>
        by_cases hv : validCodePoint s.DATA = true
        · refine .inr (.inr (.inr (.inr (.inl ⟨_, rfl, hv, rfl, hd, ?_⟩))))
          simp only [afterCommand, whileAccepting_accepting _ hd, absorbCodePoint_valid hv]
        · have hv : validCodePoint s.DATA = false := by simpa using hv
          refine .inr (.inr (.inl ⟨rfl, hd, hv, ?_⟩))
          simp only [afterCommand, whileAccepting_accepting _ hd, absorbCodePoint_invalid hv]
      | final =>
        refine .inr (.inr (.inr (.inr (.inr ⟨rfl, hd, ?_⟩))))
        simp only [afterCommand, whileAccepting_accepting _ hd]

/-- A command writes neither DATA nor the host port (R30, R149). -/
theorem afterCommand_port (i : Instr) (s : State) :
    (afterCommand i s).DATA = s.DATA ∧ (afterCommand i s).pending = s.pending ∧
      (afterCommand i s).observed = s.observed := by
  rcases afterCommand_cases i s with ⟨-, h⟩ | ⟨-, -, h⟩ | ⟨-, -, -, h⟩ | ⟨bs, -, -, h⟩ | ⟨bs, -, -, -, -, h⟩ | ⟨-, -, h⟩ <;>
    rw [h]
  · simp
  · simp
  · simp
  · have h := appendMsgs_sameAside bs s; exact ⟨h.data, h.pending, h.observed⟩
  · have h := appendMsgs_sameAside bs s; exact ⟨h.data, h.pending, h.observed⟩
  · have h := padMessage_sameAside s; simp [h.data, h.pending, h.observed]

theorem regAt_eq_cmd_iff (off : Offset) : regAt off = .cmd ↔ off = 0x00 := by revert off; decide +kernel

theorem regAt_eq_data_iff (off : Offset) : regAt off = .data ↔ off = 0x04 := by revert off; decide +kernel

theorem writeReg_of_ne {r : Reg} (h : r ≠ .cmd) (h' : r ≠ .data) (v : Word) (s : State) : writeReg r v s = .next s := by
  cases r <;> first | contradiction | rfl

theorem step_of_nil {s : State} (h : s.pending = []) : step s = .next s := by simp [step, performNext, h]

theorem step_of_cons {s : State} {e : Event} {rest : List Event} (h : s.pending = e :: rest) :
    step s = perform e (setPending rest s) := by simp [step, performNext, h]

theorem step_setPending (e : Event) (rest : List Event) (s : State) :
    step (setPending (e :: rest) s) = perform e (setPending rest s) := by
  rw [step_of_cons (setPending_pending _ _)]; rfl

theorem perform_command (w : Word) (s : State) : perform (.write 0x00 4 w) s = performCommand w s := rfl

theorem performCommand_ok {w : Word} {i : Instr} (h : decode w = .ok i) (s : State) :
    performCommand w s = .next (afterCommand i s) := by simp [performCommand, h, exec_eq]

theorem performCommand_error {w : Word} {r : Illegal} (h : decode w = .error r) (s : State) :
    performCommand w s = .next (raiseError .cmd s) := by simp [performCommand, h]

theorem perform_read {off : Offset} (h : off.toNat % 4 = 0) (s : State) :
    perform (.read off 4) s = .next (recordRead (readReg (regAt off) s) s) := by
  simp [perform, admitted, h]

theorem perform_data (v : Word) (s : State) : perform (.write 0x04 4 v) s = .next (setData v s) := rfl

theorem perform_write_other {off : Offset} (h : off.toNat % 4 = 0) (h0 : off ≠ 0x00) (h4 : off ≠ 0x04) (v : Word)
    (s : State) : perform (.write off 4 v) s = .next s := by
  have hc : regAt off ≠ .cmd := fun e => h0 ((regAt_eq_cmd_iff off).mp e)
  have hd : regAt off ≠ .data := fun e => h4 ((regAt_eq_data_iff off).mp e)
  simp [perform, admitted, h, writeReg_of_ne hc hd]

/-- Everything an event can do when it has a step. -/
theorem perform_cases {e : Event} {s t : State} (h : perform e s = .next t) :
    (e = .reset ∧ t = hardReset s) ∨
    (∃ off, e = .read off 4 ∧ off.toNat % 4 = 0 ∧
      t = recordRead (readReg (regAt off) s) s) ∨
    (∃ w i, e = .write 0x00 4 w ∧ decode w = .ok i ∧ t = afterCommand i s) ∨
    (∃ w r, e = .write 0x00 4 w ∧ decode w = .error r ∧ t = raiseError .cmd s) ∨
    (∃ v, e = .write 0x04 4 v ∧ t = setData v s) ∨
    (∃ off v, e = .write off 4 v ∧ off.toNat % 4 = 0 ∧ off ≠ 0x00 ∧ off ≠ 0x04 ∧ t = s) := by
  cases e with
  | reset => left; simp [perform] at h; exact ⟨rfl, h.symm⟩
  | read off n =>
    by_cases ha : admitted off n = true
    · simp only [admitted, decide_eq_true_eq] at ha
      obtain ⟨rfl, ho⟩ := ha
      rw [perform_read ho] at h
      right; left
      exact ⟨off, rfl, ho, by simpa using h.symm⟩
    · simp [perform, ha] at h
  | write off n v =>
    by_cases ha : admitted off n = true
    · simp only [admitted, decide_eq_true_eq] at ha
      obtain ⟨rfl, ho⟩ := ha
      right; right
      by_cases h0 : off = 0x00
      · subst h0
        rw [perform_command] at h
        cases hd : decode v with
        | ok i =>
          rw [performCommand_ok hd] at h
          left; exact ⟨v, i, rfl, hd, by simpa using h.symm⟩
        | error r =>
          rw [performCommand_error hd] at h
          right; left; exact ⟨v, r, rfl, hd, by simpa using h.symm⟩
      · by_cases h4 : off = 0x04
        · subst h4
          rw [perform_data] at h
          right; right; left; exact ⟨v, rfl, by simpa using h.symm⟩
        · rw [perform_write_other ho h0 h4] at h
          right; right; right; exact ⟨off, v, rfl, ho, h0, h4, by simpa using h.symm⟩
    · simp [perform, ha] at h

/-- No event faults (R200). -/
theorem perform_ne_fault (e : Event) (s : State) (f : Fault) : perform e s ≠ .fault f := by cases f

/-- The accesses with a step are the admitted ones (R51). -/
theorem perform_refused {e : Event} {s : State} {r : Refusal} (h : perform e s = .refused r) :
    e.safe = false ∧ ∃ off n, r = .accessNotAdmitted off n := by
  cases e with
  | reset => simp [perform] at h
  | read off n =>
    by_cases ha : admitted off n = true
    · simp [perform, ha] at h
    · simp [perform, ha] at h; exact ⟨by simpa [Event.safe] using ha, off, n, h.symm⟩
  | write off n v =>
    by_cases ha : admitted off n = true
    · simp only [admitted, decide_eq_true_eq] at ha
      obtain ⟨rfl, ho⟩ := ha
      by_cases h0 : off = 0x00
      · subst h0
        rw [perform_command] at h
        cases hd : decode v with
        | ok i => rw [performCommand_ok hd] at h; cases h
        | error r => rw [performCommand_error hd] at h; cases h
      · by_cases h4 : off = 0x04
        · subst h4; rw [perform_data] at h; cases h
        · rw [perform_write_other ho h0 h4] at h; cases h
    · simp [perform, ha] at h; exact ⟨by simpa [Event.safe] using ha, off, n, h.symm⟩

/-- The two shapes of a step that has a next state: nothing pending, or the head performed. -/
theorem step_cases {s t : State} (h : step s = .next t) :
    (s.pending = [] ∧ t = s) ∨
    ∃ e rest, s.pending = e :: rest ∧ perform e (setPending rest s) = .next t := by
  cases hp : s.pending with
  | nil => rw [step_of_nil hp] at h; left; exact ⟨rfl, by simpa using h.symm⟩
  | cons e rest => rw [step_of_cons hp] at h; right; exact ⟨e, rest, rfl, h⟩

/-! Runs of the core: one step and the rest; one run after another. -/

theorem run_zero (s : State) : Sys2Proof.core.run 0 s = .next s := rfl

theorem core_run_succ (M : Host.Core) (k : Nat) (s : M.State) :
    M.run (k + 1) s =
      match M.step s with
      | .next t => M.run k t
      | .fault r => .fault r
      | .refused r => .refused r := rfl

theorem run_succ {s t : State} (h : step s = .next t) (k : Nat) :
    Sys2Proof.core.run (k + 1) s = Sys2Proof.core.run k t := by
  have h' : Sys2Proof.core.step s = .next t := h
  have hr := core_run_succ Sys2Proof.core k s
  rw [h'] at hr
  exact hr

theorem run_add {j : Nat} {s t : State} (h : Sys2Proof.core.run j s = .next t) (k : Nat) :
    Sys2Proof.core.run (j + k) s = Sys2Proof.core.run k t := by
  induction j generalizing s with
  | zero => cases h; rw [Nat.zero_add]
  | succ j ih =>
    cases hs : step s with
    | next u =>
      rw [run_succ hs] at h
      rw [Nat.add_right_comm, run_succ hs, ih h]
    | fault f => cases f
    | refused r =>
      have h' : Sys2Proof.core.step s = .refused r := hs
      have hr := core_run_succ Sys2Proof.core j s
      rw [h', h] at hr
      cases hr

end Sys2Proof.Machine
end

