-- ==== Sys2Proof/Laws/Bytes.lean ====
section
/-! SUPPORT. The byte views: the bytes of `LE32` (R11), the bytes of a HEX register (R177), the code points the encoder
takes (R170) and the bytes it gives them (R171, R172), as numbers. -/

namespace Sys2Proof.Machine

theorem toNat_append_byte {n : Nat} (x : BitVec n) (y : Byte) : (x ++ y).toNat = x.toNat * 256 + y.toNat := by
  rw [BitVec.toNat_append, ← Nat.shiftLeft_add_eq_or_of_lt y.isLt, Nat.shiftLeft_eq]

theorem le32_toNat (a b c d : Byte) :
    (le32 a b c d).toNat = ((d.toNat * 256 + c.toNat) * 256 + b.toNat) * 256 + a.toNat := by
  rw [le32, toNat_append_byte, toNat_append_byte, toNat_append_byte]

/-- `BYTE(LE32(b0, b1, b2, b3), m)` is `bm` (R11). -/
theorem byteOf_le32 (a b c d : Byte) :
    byteOf (le32 a b c d) 0 = a ∧ byteOf (le32 a b c d) 1 = b ∧
      byteOf (le32 a b c d) 2 = c ∧ byteOf (le32 a b c d) 3 = d := by
  have ha := a.isLt
  have hb := b.isLt
  have hc := c.isLt
  have hd := d.isLt
  refine ⟨?_, ?_, ?_, ?_⟩ <;>
  · apply BitVec.eq_of_toNat_eq
    simp only [byteOf, BitVec.extractLsb'_toNat, le32_toNat, Nat.shiftRight_eq_div_pow]
    omega

theorem byteOf_hexWord (S : Quad) (j : Nat) (m : Fin 4) : byteOf (hexWord S j) m.val = hexText S (4 * j + m.val) := by
  have h := byteOf_le32 (hexText S (4 * j)) (hexText S (4 * j + 1)) (hexText S (4 * j + 2)) (hexText S (4 * j + 3))
  fin_cases m
  · exact h.1
  · exact h.2.1
  · exact h.2.2.1
  · exact h.2.2.2

/-- A word is its four bytes. -/
theorem eq_of_byteOf_eq {a b : Word} (h : ∀ m < 4, byteOf a m = byteOf b m) : a = b := by
  apply BitVec.eq_of_getLsbD_eq
  intro i hi
  have h1 := congrArg (fun x => x.getLsbD (i % 8)) (h (i / 8) (by omega))
  simp [byteOf] at h1
  rw [show 8 * (i / 8) + i % 8 = i by omega] at h1
  simpa [show i % 8 < 8 by omega] using h1

theorem validCodePoint_iff (cp : Word) :
    validCodePoint cp = true ↔ cp.toNat ≤ 0xD7FF ∨ (0xE000 ≤ cp.toNat ∧ cp.toNat ≤ 0x10FFFF) := by
  simp [validCodePoint, BitVec.le_def]

/-- Up to 0xFFFF the bytes are those of the code point itself (R171). -/
theorem utf16leBytes_bmp {cp : Word} (h : cp.toNat ≤ 0xFFFF) :
    utf16leBytes cp = [BitVec.ofNat 8 (cp.toNat % 0x100), BitVec.ofNat 8 (cp.toNat / 0x100)] := by
  have hle : cp ≤ 0xFFFF := by simp [BitVec.le_def]; omega
  simp only [utf16leBytes, hle, if_true, unitBytes, byteOf, List.cons.injEq, and_true]
  constructor <;> apply BitVec.eq_of_toNat_eq <;>
    simp [BitVec.extractLsb'_toNat, Nat.shiftRight_eq_div_pow]

/-- Above 0xFFFF they are those of the surrogate pair, high unit first (R172). -/
theorem utf16leBytes_supplementary {cp : Word} (h1 : 0x10000 ≤ cp.toNat) (h2 : cp.toNat ≤ 0x10FFFF) :
    utf16leBytes cp =
      [BitVec.ofNat 8 ((0xD800 + (cp.toNat - 0x10000) / 0x400) % 0x100),
        BitVec.ofNat 8 ((0xD800 + (cp.toNat - 0x10000) / 0x400) / 0x100),
        BitVec.ofNat 8 ((0xDC00 + (cp.toNat - 0x10000) % 0x400) % 0x100),
        BitVec.ofNat 8 ((0xDC00 + (cp.toNat - 0x10000) % 0x400) / 0x100)] := by
  have hn : ¬ cp ≤ 0xFFFF := by simp [BitVec.le_def]; omega
  have hsub : (cp - 0x10000).toNat = cp.toNat - 0x10000 := by
    rw [BitVec.toNat_sub]; simp; omega
  simp only [utf16leBytes, hn, if_false, unitBytes, byteOf, surrogatePair, List.cons_append, List.nil_append,
    List.cons.injEq, and_true]
  refine ⟨?_, ?_, ?_, ?_⟩ <;> apply BitVec.eq_of_toNat_eq <;>
    simp [BitVec.extractLsb'_toNat, Nat.shiftRight_eq_div_pow] <;> omega

theorem utf16leBytes_length_le (cp : Word) : (utf16leBytes cp).length ≤ 4 := by
  unfold utf16leBytes; split <;> simp [unitBytes]

@[simp] theorem absorbBytes_length (c : Nat) (data : Word) : (absorbBytes c data).length = c := by simp [absorbBytes]

/-! The word view of a block (R100). -/

theorem wordsOf_length {n : Nat} {bs : List Byte} (h : bs.length = 4 * n) : (wordsOf bs).length = n := by
  induction n generalizing bs with
  | zero => simp at h; subst h; rfl
  | succ n ih =>
    match bs, h with
    | b0 :: b1 :: b2 :: b3 :: r, h => simp only [wordsOf, List.length_cons]; rw [ih (by simp at h; omega)]

theorem wordsOf_getD {n : Nat} {bs : List Byte} (h : bs.length = 4 * n) {j : Nat} (hj : j < n) :
    (wordsOf bs).getD j 0 =
      le32 (bs.getD (4 * j) 0) (bs.getD (4 * j + 1) 0) (bs.getD (4 * j + 2) 0) (bs.getD (4 * j + 3) 0) := by
  induction n generalizing bs j with
  | zero => omega
  | succ n ih =>
    match bs, h with
    | b0 :: b1 :: b2 :: b3 :: r, h =>
      cases j with
      | zero => rfl
      | succ j =>
        have := ih (bs := r) (by simp at h; omega) (j := j) (by omega)
        simp only [wordsOf, List.getD_cons_succ, this]
        rfl

/-- A command word with no reserved bit set is one of 64. -/
theorem toNat_lt_of_reservedField_eq_zero {w : Word} (h : reservedField w = 0) : w.toNat < 64 := by
  have h := congrArg BitVec.toNat h
  simp [reservedField, BitVec.extractLsb'_toNat, Nat.shiftRight_eq_div_pow] at h
  omega

end Sys2Proof.Machine
end

