-- ==== Sys2Proof/Laws/PerInstr.lean ====
section
/-! SUPPORT. Statements about every instruction as syntax, one lemma for each constructor. -/

namespace Sys2Proof.Laws

/-- The fields of an instruction's command word (R70 to R72): no reserved bit, its operation code, and the count minus one
for ABSORB, 0 for the others. -/
def EncodedFields.Statement (i : Instr) : Prop :=
  i.wellFormed = true →
    reservedField (encode i) = 0 ∧
    opField (encode i) = (match i with
      | .init => 0x1
      | .absorb _ => 0x2
      | .absorbCp => 0x3
      | .final => 0x4) ∧
    (countField (encode i)).toNat = (match i with
      | .init => 0
      | .absorb c => c - 1
      | .absorbCp => 0
      | .final => 0)

theorem EncodedFields.init : EncodedFields.Statement .init := fun _ => by decide

theorem EncodedFields.absorb (c : Nat) : EncodedFields.Statement (.absorb c) := by
  intro h
  simp only [Instr.wellFormed, decide_eq_true_eq] at h
  obtain ⟨h1, h4⟩ := h
  interval_cases c <;> decide

theorem EncodedFields.absorbCp : EncodedFields.Statement .absorbCp := fun _ => by decide

theorem EncodedFields.final : EncodedFields.Statement .final := fun _ => by decide

end Sys2Proof.Laws
end

