-- ==== Sys2Proof/Tests/Slice0.lean ====
section
/-! SUPPORT. The model's own tests. Expected values come from spec/95_test_vectors.md and the rules (the docstring names the
vector), never from the model. Then, for each obligation with hypotheses, concrete states and operands that meet them. -/

namespace Sys2Proof.Tests

open Sys2Proof Sys2Proof.Machine

/-- Reset, with these accesses to come. -/
def host (es : List Event) : State := { State.reset with pending := es }

/-- The next state of an outcome; reset where there is none. -/
def nextOf (o : Host.Outcome State Fault Refusal) : State :=
  match o with
  | .next s => s
  | .fault _ => State.reset
  | .refused _ => State.reset

/-- While accepting, with this operand, these bytes already appended since the last whole block, and this length. -/
def accepting (data : Word) (buf : List Byte) (len : Length) : State :=
  { State.reset with DATA := data, BUF := toBlock buf, FILL := Fin.ofNat 64 buf.length, LEN := len }

/-- A finished computation with this operand. -/
def finished (data : Word) : State := { State.reset with DATA := data, DONE := true }

/-! ## WellFormed and the decoder -/

/-- `absorb 0` is no command (R71, R75). -/
theorem test_wellFormed_refuses_absorb_0 : (Instr.absorb 0).wellFormed = false := by decide
/-- `absorb 5` is no command (R71, R75). -/
theorem test_wellFormed_refuses_absorb_5 : (Instr.absorb 5).wellFormed = false := by decide
theorem test_wellFormed_accepts : ∀ i ∈ [Instr.init, .absorb 1, .absorb 4, .absorbCp, .final], i.wellFormed = true := by
  decide

/-- R72: RSV = 0, N = 0, OP = 0001. -/
theorem test_word_init : decode (0b00000000000000000000000000#26 ++ 0b00#2 ++ 0b0001#4) = .ok .init := by decide
/-- R72: RSV = 0, N = 2 (a count of 3), OP = 0010. -/
theorem test_word_absorb : decode (0b00000000000000000000000000#26 ++ 0b10#2 ++ 0b0010#4) = .ok (.absorb 3) := by decide
/-- R72: RSV = 0, N = 0, OP = 0011. -/
theorem test_word_absorbCp : decode (0b00000000000000000000000000#26 ++ 0b00#2 ++ 0b0011#4) = .ok .absorbCp := by decide
/-- R72: RSV = 0, N = 0, OP = 0100. -/
theorem test_word_final : decode (0b00000000000000000000000000#26 ++ 0b00#2 ++ 0b0100#4) = .ok .final := by decide
/-- V-D1, the illegal words. -/
theorem test_illegal_words :
    ([0x00000000, 0x00000011, 0x00000013, 0x00000023, 0x00000033, 0x00000014, 0x00000005, 0x0000000F, 0x00000040,
      0x00000041, 0x00000042, 0x80000001, 0xFFFFFFFF] : List Word).all (fun w => (decode w).toOption = none) = true := by
  decide
theorem test_tableWord : decodeTableWord 32 0x32 = some (.absorb 4) := by decide

/-! ## The mixer -/

/-- V-M1: each of the eight bit combinations. -/
theorem test_fnF : fnF 0xFFFF0000 0xFF00FF00 0xF0F0F0F0 = 0xFF00F0F0 := by decide
theorem test_fnG : fnG 0xFFFF0000 0xFF00FF00 0xF0F0F0F0 = 0xFFF0F000 := by decide
theorem test_fnH : fnH 0xFFFF0000 0xFF00FF00 0xF0F0F0F0 = 0xF00F0FF0 := by decide
/-- V-M6. -/
theorem test_rotl32 : rotl32 0x12345678 19 = 0xB3C091A2 := by decide
/-- V-M8, step 0: the sum wraps; swapped arguments of F would give 0x3A291C03. -/
theorem test_step_0 : mixStep (stepRow 0) 0x00000080 Quad.initial = { Quad.initial with a := 0x000003F8 } := by decide
/-- V-M8, step 1. -/
theorem test_step_1 : (mixStep (stepRow 1) 0 { Quad.initial with a := 0x000003F8 }).d = 0x769A0254 := by decide
/-- V-M9: the working registers after step 47 of the padded empty message. -/
theorem test_mix_empty : mixBlock Quad.initial (toBlock [0x80]) = ⟨0x798AB330, 0x421BBF48, 0x3E9E5FB9, 0xB0576C6A⟩ := by
  decide +kernel
/-- V-M11. -/
theorem test_compress_zero :
    compressBlock ⟨0, 0, 0, 0⟩ (Vector.replicate 64 0) = ⟨0x33C84836, 0xC19152D1, 0xE762D9DF, 0xA20027BD⟩ := by
  decide +kernel
/-- V-M13: bytes 00 to 3F. -/
theorem test_compress_ascending :
    compressBlock Quad.initial (toBlock ((List.range 64).map (BitVec.ofNat 8))) =
      ⟨0x4ECABFD4, 0xA26EF3A6, 0xC90C1563, 0xDB599A46⟩ := by decide +kernel
/-- V-M15: the words of the padded block of "abc". -/
theorem test_block_words :
    blockWords (toBlock ([0x61, 0x62, 0x63, 0x80] ++ List.replicate 52 0x00 ++ [0x18, 0, 0, 0, 0, 0, 0, 0])) =
      0x80636261 :: List.replicate 13 0x00000000 ++ [0x00000018, 0x00000000] := by decide +kernel

/-! ## The commands, at most two for each -/

/-- V-E1: INIT after an erroneous computation. -/
theorem test_init_recovers :
    let t := nextOf (exec .init { finished 0x41 with S := ⟨1, 2, 3, 4⟩, ERR_CMD := true, ERR_ENC := true, LEN := 16 })
    statusWord t = 0 ∧ t.LEN = 0 ∧ t.S = Quad.initial ∧ t.DATA = 0x41 := by decide +kernel
/-- V-E3: ABSORB.3 of 0x64636261; DATA[31:24] is ignored. -/
theorem test_absorb_3 :
    let t := nextOf (exec (.absorb 3) (accepting 0x64636261 [] 0))
    statusWord t = 0x00000300 ∧ t.LEN = 24 ∧ t.BUF.toList.take 4 = [0x61, 0x62, 0x63, 0x00] := by decide +kernel
/-- V-E6: ABSORB.4 across the end of a block. -/
theorem test_absorb_crosses_block :
    let t := nextOf (exec (.absorb 4) (accepting 0x64636261 (List.replicate 62 0x61) 496))
    statusWord t = 0x00000200 ∧ t.LEN = 528 ∧ t.S = ⟨0xD34B2984, 0xA078F0B2, 0xD3CA5872, 0x605D29A7⟩ ∧
      t.BUF.toList.take 2 = [0x63, 0x64] := by decide +kernel
/-- V-N3: U+1F600 is a surrogate pair, four bytes. -/
theorem test_absorbCp_supplementary :
    let t := nextOf (exec .absorbCp (accepting 0x1F600 [] 0))
    statusWord t = 0x00000400 ∧ t.LEN = 32 ∧ t.BUF.toList.take 4 = [0x3D, 0xD8, 0x00, 0xDE] := by decide +kernel
/-- V-N1: no truncation of a value above 0x10FFFF. -/
theorem test_absorbCp_rejects :
    let t := nextOf (exec .absorbCp (accepting 0x80000041 [] 0))
    statusWord t = 0x00000004 ∧ t.LEN = 0 := by decide +kernel
/-- P5, V-E13: FINAL after "abc". -/
theorem test_final_abc :
    let t := nextOf (exec .final (accepting 0xFFFFFF63 [0x61, 0x62, 0x63] 24))
    statusWord t = 0x00000001 ∧ t.LEN = 24 ∧ t.S = ⟨0x7A0148A4, 0x52D821AF, 0xE80AC15F, 0x9D72A67A⟩ := by decide +kernel
/-- P4: FINAL at FILL = 56 compresses twice. -/
theorem test_final_56 :
    (nextOf (exec .final (accepting 0 (List.replicate 56 0x61) 448))).S =
      ⟨0xE9A9F9D5, 0xA5777025, 0x920B8BF0, 0xADB048F3⟩ := by decide +kernel
/-- V-E9: every byte of a large LEN is in the padding. -/
theorem test_final_long_length :
    let t := nextOf (exec .final (accepting 0 [] 0xFFFFFFFFFFFFFE00))
    t.S = ⟨0xB1230A58, 0xD31D7BCE, 0x1325677C, 0xEDB696D0⟩ ∧ t.LEN = 0xFFFFFFFFFFFFFE00 := by decide +kernel
/-- V-E8: LEN wraps to 0 with no flag. -/
theorem test_absorb_wraps_length :
    let t := nextOf (exec (.absorb 1) { accepting 0 [] 0xFFFFFFFFFFFFFFF8 with FILL := 63 })
    t.LEN = 0 ∧ statusWord t = 0 := by decide +kernel

/-! ## Errors, registers, reset -/

/-- V-X1: an illegal word sets ERR_CMD only. -/
theorem test_illegal_word :
    let t := nextOf (step { accepting 0x6261 [0x61, 0x62] 16 with pending := [.write 0x00 4 0x00000000] })
    statusWord t = 0x00000202 ∧ t.LEN = 16 ∧ t.S = Quad.initial := by decide +kernel
/-- V-X4: with DONE = 1 a rejected code point is ErrSeq, an illegal word ErrCmd. -/
theorem test_error_priority :
    statusWord (nextOf (exec .absorbCp (finished 0xD800))) = 0x00000009 ∧
    statusWord (nextOf (step { finished 0 with pending := [.write 0x00 4 0x00000013] })) = 0x00000003 := by
  decide +kernel
/-- V-H3. -/
theorem test_hex :
    (List.range 8).map (hexWord ⟨0x01234567, 0x89ABCDEF, 0xFEDCBA98, 0x76543210⟩) =
      [0x35343736, 0x31303332, 0x44434645, 0x39384241, 0x41423839, 0x45464344, 0x32333031, 0x36373435] := by decide +kernel
/-- V-H4: both nibble positions. -/
theorem test_hex_nibbles :
    (List.range 4).map (hexWord ⟨0x0000000A, 0xA0000000, 0x5A5A5A5A, 0x00FF00FF⟩) =
      [0x30304130, 0x30303030, 0x30303030, 0x30413030] := by decide +kernel
/-- V-R1: every offset the host may read after reset, but the digest and HEX registers. -/
theorem test_reset_reads :
    ∀ off ∈ ([0x00, 0x04, 0x08, 0x0C, 0x10, 0x14, 0x18, 0x1C, 0x50, 0xFC] : List Offset),
      readReg (regAt off) State.reset = 0 := by decide
/-- V-R2: DATA reads back. -/
theorem test_data_reads_back :
    (nextOf (step (nextOf (step (host [.write 0x04 4 0xDEADBEEF, .read 0x04 4]))))).observed = [0xDEADBEEF] := by decide
/-- V-R3: writes to read-only and reserved offsets are ignored. -/
theorem test_writes_ignored :
    ∀ off ∈ ([0x08, 0x0C, 0x20, 0x30, 0x14, 0xFC] : List Offset),
      nextOf (step (host [.write off 4 0xFFFFFFFF])) = State.reset := by decide
/-- V-R6: the three accesses that are not admitted. -/
theorem test_not_admitted :
    step (host [.write 0x00 1 0x01]) = .refused (.accessNotAdmitted 0x00 1) ∧
    step (host [.read 0x08 2]) = .refused (.accessNotAdmitted 0x08 2) ∧
    step (host [.write 0x02 4 0x01]) = .refused (.accessNotAdmitted 0x02 4) := ⟨rfl, rfl, rfl⟩
/-- V-R7: a reset after work, DATA included. -/
theorem test_reset_event :
    let t := nextOf (step { finished 0x64 with pending := [.reset], S := ⟨1, 2, 3, 4⟩, LEN := 128 })
    statusWord t = 0 ∧ t.LEN = 0 ∧ t.DATA = 0 ∧ t.S = Quad.initial := by decide +kernel

/-! ## The reference functions and the assembler -/

/-- V-E11, n = 1: MD4 of "a". -/
theorem test_md4_a : md4Digest [0x61] =
    [0xBD, 0xE5, 0x2C, 0xB3, 0x1D, 0xE3, 0x3E, 0x46, 0x24, 0x5E, 0x05, 0xFB, 0xDB, 0xD6, 0xFB, 0x24] := by decide +kernel
/-- V-S2: NTLM of "password" as characters. -/
theorem test_ntlm_password : ntlmHash (codePointsOf "password".toList) =
    "8846F7EAEE8FB117AD06BDD830B7586C".toList.map (fun c => BitVec.ofNat 8 c.toNat) := by decide +kernel
/-- R75: a line with an operand, and P2's `WR DATA, 0x61616161`. -/
theorem test_assemble_lines :
    assembleText ["ABSORB.4 0x61616161 ; four bytes".toList, "WR DATA, 0x61616161".toList, "RD STATUS".toList] =
      .ok [.write 0x04 4 0x61616161, .write 0x00 4 0x00000032, .write 0x04 4 0x61616161, .read 0x08 4] := by decide
/-- P1's `ABSORB_CP 'p'`, and a raw command word. -/
theorem test_assemble_char :
    assembleText ["ABSORB_CP 'p'".toList, ".cmd 0x00000013".toList] =
      .ok [.write 0x04 4 0x70, .write 0x00 4 0x00000003, .write 0x00 4 0x00000013] := by decide
/-- R76: five bytes are one group of four and one byte. -/
theorem test_assemble_bytes :
    assembleText ["ABSORB_BYTES 0x61, 0x62, 0x63, 0x64, 0x65".toList] =
      .ok [.write 0x04 4 0x64636261, .write 0x00 4 0x00000032, .write 0x04 4 0x00000065, .write 0x00 4 0x00000002] := by
  decide

/-! ## Witnesses: concrete values that meet the hypotheses of each obligation -/

theorem witness_DecodeMatchesEncode :
    decode 0x00000032 = .ok (.absorb 4) ∧ (Instr.absorb 4).wellFormed = true ∧ encode (.absorb 4) = 0x00000032 := by decide

theorem witness_CmdWritePerformsCommand :
    (host [.write 0x00 4 0x00000012]).pending = .write 0x00 4 0x00000012 :: [] ∧ decode 0x00000012 = .ok (.absorb 2) ∧
    (host [.read 0x00 4]).pending = .read 0x00 4 :: [] := by decide

theorem witness_PlacedCommandRunsNext :
    decodeTableWord 32 0x00000001 = some .init ∧ decodeTableWord 32 0x00000022 = some (.absorb 3) ∧
    decodeTableWord 32 0x00000003 = some .absorbCp ∧ decodeTableWord 32 0x00000004 = some .final := by decide

theorem witness_StepTakesOldestAccess :
    (host []).pending = [] ∧
    (∃ t, (host [.read 0x08 4]).pending = [.read 0x08 4] ∧ step (host [.read 0x08 4]) = .next t) ∧
    (∃ t, (host [.write 0x04 4 7]).pending = [.write 0x04 4 7] ∧ step (host [.write 0x04 4 7]) = .next t) ∧
    (∃ t, (host [.reset]).pending = [.reset] ∧ step (host [.reset]) = .next t) :=
  ⟨rfl, ⟨_, rfl, rfl⟩, ⟨_, rfl, rfl⟩, ⟨_, rfl, rfl⟩⟩

theorem witness_OnlyAlignedWordAccessesAdmitted :
    ((4 : Nat) = 4 ∧ (0xFC : Offset).toNat % 4 = 0) ∧ ¬ ((1 : Nat) = 4 ∧ (0x00 : Offset).toNat % 4 = 0) ∧
    ¬ ((4 : Nat) = 4 ∧ (0xFE : Offset).toNat % 4 = 0) ∧
    (host [.read 0xFC 4]).pending = .read 0xFC 4 :: [] ∧ (host [.write 0xFC 4 1]).pending = .write 0xFC 4 1 :: [] ∧
    (host [.read 0x00 1]).pending = .read 0x00 1 :: [] ∧ (host [.write 0xFE 4 1]).pending = .write 0xFE 4 1 :: [] := by
  decide

theorem witness_AccessesHaveNoOtherEffect :
    (0xFC : Offset).toNat % 4 = 0 ∧ (0x08 : Offset).toNat % 4 = 0 ∧ (0x08 : Offset) ≠ 0x00 ∧ (0x08 : Offset) ≠ 0x04 ∧
    (host [.read 0xFC 4]).pending = .read 0xFC 4 :: [] ∧ (host [.write 0x04 4 5]).pending = .write 0x04 4 5 :: [] ∧
    (host [.write 0x08 4 5]).pending = .write 0x08 4 5 :: [] := by decide

theorem witness_DataChangesOnlyByHostWriteOrReset :
    (∃ t, step (host [.write 0x04 4 5]) = .next t ∧ (host [.write 0x04 4 5]).pending = .write 0x04 4 5 :: []) ∧
    (∃ t, step (host [.reset]) = .next t ∧ (host [.reset]).pending = .reset :: []) ∧
    (∃ t, step (host [.write 0x00 4 2]) = .next t ∧ (∀ v rest, (host [.write 0x00 4 2]).pending ≠ .write 0x04 4 v :: rest) ∧
      ∀ rest, (host [.write 0x00 4 2]).pending ≠ .reset :: rest) := by
  refine ⟨⟨_, rfl, rfl⟩, ⟨_, rfl, rfl⟩, _, rfl, ?_, ?_⟩ <;> simp [host]

theorem witness_CommandUsesDataWrittenBefore :
    (host [.write 0x04 4 0x61, .write 0x00 4 0x00000002]).pending = .write 0x04 4 0x61 :: .write 0x00 4 0x00000002 :: [] ∧
    decode 0x00000002 = .ok (.absorb 1) := by decide

theorem witness_RegisterMapReads :
    ∀ off ∈ ([0x14, 0x1C, 0x50, 0xFC] : List Offset),
      off.toNat % 4 = 0 ∧ ((0x14 ≤ off.toNat ∧ off.toNat ≤ 0x1C) ∨ 0x50 ≤ off.toNat) := by decide

theorem witness_StatusLayout : (host [.write 0x08 4 0xFFFFFFFF]).pending = .write 0x08 4 0xFFFFFFFF :: [] := by decide

theorem witness_ResetEventLeavesInitState :
    ({ finished 0x64 with pending := [.reset, .read 0x04 4] } : State).pending = .reset :: [.read 0x04 4] := by decide

theorem witness_AbsorbAppendsDataBytes :
    (1 ≤ 1 ∧ 1 ≤ 4 ∧ (accepting 0x61 [] 0).DONE = false) ∧
    (1 ≤ 4 ∧ 4 ≤ 4 ∧ (accepting 0x64636261 (List.replicate 62 0x61) 496).DONE = false) := by decide

theorem witness_AbsorbCpAppendsUtf16le :
    (∀ n ∈ [0x0000, 0xD7FF], (accepting (BitVec.ofNat 32 n) [] 0).DONE = false ∧ (accepting (BitVec.ofNat 32 n) [] 0).DATA.toNat ≤ 0xD7FF) ∧
    (∀ n ∈ [0xE000, 0xFFFF], (accepting (BitVec.ofNat 32 n) [] 0).DONE = false ∧
      0xE000 ≤ (accepting (BitVec.ofNat 32 n) [] 0).DATA.toNat ∧ (accepting (BitVec.ofNat 32 n) [] 0).DATA.toNat ≤ 0xFFFF) ∧
    (∀ n ∈ [0x10000, 0x10FFFF], (accepting (BitVec.ofNat 32 n) [] 0).DONE = false ∧
      0x10000 ≤ (accepting (BitVec.ofNat 32 n) [] 0).DATA.toNat ∧ (accepting (BitVec.ofNat 32 n) [] 0).DATA.toNat ≤ 0x10FFFF) := by decide +kernel

theorem witness_RejectedCodePointOnlySetsErrEnc :
    (∀ n ∈ [0xD800, 0xDFFF], (accepting (BitVec.ofNat 32 n) [] 0).DONE = false ∧
      0xD800 ≤ (accepting (BitVec.ofNat 32 n) [] 0).DATA.toNat ∧ (accepting (BitVec.ofNat 32 n) [] 0).DATA.toNat ≤ 0xDFFF) ∧
    (accepting 0x110000 [] 0).DONE = false ∧ 0x10FFFF < (accepting 0x110000 [] 0).DATA.toNat ∧
    (∃ t, exec .absorbCp (accepting 0xD800 [] 0) = .next t ∧ (accepting 0xD800 [] 0).ERR_ENC = false ∧ t.ERR_ENC = true) := by
  refine ⟨by decide +kernel, by decide, by decide, _, rfl, by decide, by decide +kernel⟩

theorem witness_FinalPadsAndCompresses :
    (∀ n ∈ [0, 55], (accepting 0 (List.replicate n 0x61) 0).DONE = false ∧
      (accepting 0 (List.replicate n 0x61) 0).FILL.val ≤ 55) ∧
    (∀ n ∈ [56, 63], (accepting 0 (List.replicate n 0x61) 0).DONE = false ∧
      ¬ (accepting 0 (List.replicate n 0x61) 0).FILL.val ≤ 55) := by decide +kernel

theorem witness_PaddingLoopReaches56 : 63 ≤ 63 ∧ (accepting 0 (List.replicate 57 0) 0).FILL = 57 := by decide +kernel

theorem witness_IllegalWordOnlySetsErrCmd :
    (host [.write 0x00 4 0x00000041]).pending = .write 0x00 4 0x00000041 :: [] ∧
    (0x00000041 : Word).extractLsb' 6 26 ≠ 0 ∧ (0x80000001 : Word).extractLsb' 6 26 ≠ 0 ∧
    (0x00000000 : Word).extractLsb' 0 4 ∉ ([1, 2, 3, 4] : List (BitVec 4)) ∧
    (0x00000005 : Word).extractLsb' 0 4 ∉ ([1, 2, 3, 4] : List (BitVec 4)) ∧
    ((0x00000011 : Word).extractLsb' 0 4 ∈ ([1, 3, 4] : List (BitVec 4)) ∧ (0x00000011 : Word).extractLsb' 4 2 ≠ 0) := by
  decide

theorem witness_DoneStateRaisesErrSeq :
    (finished 0x41).DONE = true ∧ (Instr.absorb 1) ≠ .init ∧ Instr.absorbCp ≠ .init ∧ Instr.final ≠ .init ∧
    ∃ t, exec .init (finished 0x41) = .next t := by
  refine ⟨by decide, by decide, by decide, by decide, _, rfl⟩

theorem witness_OneErrorFlagPerCommand :
    (∃ t, (host [.write 0x00 4 0x00000000]).pending = .write 0x00 4 0x00000000 :: [] ∧
      step (host [.write 0x00 4 0x00000000]) = .next t ∧
      errorFlag .cmd (host [.write 0x00 4 0x00000000]) = false ∧ errorFlag .cmd t = true) ∧
    decode 0x00000000 = .error .unknownOperation ∧
    (({ finished 0xD800 with pending := [.write 0x00 4 0x00000003] } : State).DONE = true ∧
      decode 0x00000003 = .ok .absorbCp ∧ Instr.absorbCp ≠ .init) ∧
    (({ accepting 0xD800 [] 0 with pending := [.write 0x00 4 0x00000003] } : State).DONE = false ∧
      validCodePoint ({ accepting 0xD800 [] 0 with pending := [.write 0x00 4 0x00000003] } : State).DATA = false) := by
  refine ⟨⟨_, rfl, rfl, rfl, rfl⟩, ?_⟩
  decide

/-- A step that sets each flag, and one after which a flag stays. -/
theorem witness_ErrorFlagsAreSticky :
    (∃ t, step (host [.write 0x00 4 0x00000000]) = .next t ∧ (host [.write 0x00 4 0x00000000]).ERR_CMD = false ∧
      t.ERR_CMD = true) ∧
    (∃ t, step { finished 0 with pending := [.write 0x00 4 0x00000004] } = .next t ∧ t.ERR_SEQ = true) ∧
    (∃ t, step { accepting 0xD800 [] 0 with pending := [.write 0x00 4 0x00000003] } = .next t ∧ t.ERR_ENC = true) ∧
    (∃ t, step { host [.write 0x04 4 5] with ERR_CMD := true } = .next t ∧
      (∀ rest, ({ host [.write 0x04 4 5] with ERR_CMD := true } : State).pending ≠ .reset :: rest) ∧
      (∀ w rest, ({ host [.write 0x04 4 5] with ERR_CMD := true } : State).pending = .write 0x00 4 w :: rest →
        decode w ≠ .ok .init) ∧
      errorFlag .cmd { host [.write 0x04 4 5] with ERR_CMD := true } = true) := by
  refine ⟨⟨_, rfl, rfl, rfl⟩, ⟨_, rfl, rfl⟩, ⟨_, rfl, rfl⟩, _, rfl, ?_, ?_, rfl⟩ <;> simp [host]

theorem witness_ErrorsDoNotStopTheEngine :
    ({ accepting 0x61 [0x41, 0x00] 16 with ERR_ENC := true } : State) =
      { accepting 0x61 [0x41, 0x00] 16 with ERR_CMD := false, ERR_ENC := true, ERR_SEQ := false } := by decide +kernel

theorem witness_FinishedDigestIsKept :
    (∃ t, step (host [.write 0x00 4 0x00000004]) = .next t ∧ (host [.write 0x00 4 0x00000004]).DONE = false ∧
      t.DONE = true) ∧
    (∃ t, step { finished 0 with pending := [.write 0x00 4 0x00000032] } = .next t ∧
      ({ finished 0 with pending := [.write 0x00 4 0x00000032] } : State).DONE = true ∧
      (∀ rest, ({ finished 0 with pending := [.write 0x00 4 0x00000032] } : State).pending ≠ .reset :: rest) ∧
      (∀ w rest, ({ finished 0 with pending := [.write 0x00 4 0x00000032] } : State).pending = .write 0x00 4 w :: rest →
        decode w ≠ .ok .init)) := by
  refine ⟨⟨_, rfl, rfl, rfl⟩, _, rfl, rfl, ?_, ?_⟩
  · simp
  · rintro w rest h
    simp at h
    obtain ⟨rfl, -⟩ := h
    decide

theorem witness_RoundFunctionsBitwise : 0 < 32 ∧ 31 < 32 := by decide

theorem witness_RotationIsCircular : (1 ≤ 1 ∧ 1 ≤ 31 ∧ 31 < 32) ∧ (1 ≤ 31 ∧ 31 ≤ 31 ∧ 0 < 32) := by decide

theorem witness_MixStepWritesOnlyTarget :
    (stepRow 0).t = 0 ∧ (stepRow 1).t = 3 ∧ (stepRow 2).t = 2 ∧ (stepRow 47).t = 1 ∧ (1 : Fin 4) ≠ (stepRow 0).t := by decide

theorem witness_StepTableRows : 0 < 16 ∧ 15 < 16 := by decide

/-- A step that changes S: INIT, reset, ABSORB and ABSORB_CP that fill a block, and FINAL with one block and with two. -/
theorem witness_AccumulatorWrittenThreeWays :
    (∃ t, step { finished 0 with S := ⟨1, 2, 3, 4⟩, pending := [.write 0x00 4 0x00000001] } = .next t ∧ t.S ≠ ⟨1, 2, 3, 4⟩) ∧
    (∃ t, step { finished 0 with S := ⟨1, 2, 3, 4⟩, pending := [.reset] } = .next t ∧ t.S ≠ ⟨1, 2, 3, 4⟩) ∧
    (∃ t, step { accepting 0x61 (List.replicate 63 0x61) 504 with pending := [.write 0x00 4 0x00000002] } = .next t ∧
      t.S ≠ Quad.initial) ∧
    (∃ t, step { accepting 0x41 (List.replicate 62 0x61) 496 with pending := [.write 0x00 4 0x00000003] } = .next t ∧
      t.S ≠ Quad.initial) ∧
    (∃ t, step { accepting 0 (List.replicate 55 0x61) 440 with pending := [.write 0x00 4 0x00000004] } = .next t ∧
      t.S ≠ Quad.initial) ∧
    (∃ t, step { accepting 0 (List.replicate 56 0x61) 448 with pending := [.write 0x00 4 0x00000004] } = .next t ∧
      t.S ≠ Quad.initial) := by
  refine ⟨⟨_, rfl, by decide⟩, ⟨_, rfl, by decide⟩, ⟨_, rfl, by decide +kernel⟩, ⟨_, rfl, by decide +kernel⟩,
    ⟨_, rfl, by decide +kernel⟩, ⟨_, rfl, by decide +kernel⟩⟩

theorem witness_HexRegistersDetermineDigest :
    ∀ j : Fin 8, readReg (.hex j) State.reset = readReg (.hex j) (finished 5) := by decide

theorem witness_EncodingIsInjective :
    (∀ x ∈ ([0x0041, 0x1F600] : List Word), validCodePoint x = true) ∧
    utf16leMessage [0x0041, 0x1F600] = [0x41, 0x00, 0x3D, 0xD8, 0x00, 0xDE] :=
  ⟨List.all_eq_true.mp (by decide), by decide +kernel⟩

/-- Three commands share two DATA writes. -/
theorem witness_FeedsChainBlocks :
    feedBytes [.data 0x61616161, .absorb 4, .absorb 1, .data 0x20AC, .codePoint] State.reset.DATA =
      some [0x61, 0x61, 0x61, 0x61, 0x61, 0xAC, 0x20] ∧
    (host (feedEvents [.data 0x61616161, .absorb 4, .absorb 1, .data 0x20AC, .codePoint] ++ [.read 0x08 4])).DONE = false ∧
    (host (feedEvents [.data 0x61616161, .absorb 4, .absorb 1, .data 0x20AC, .codePoint] ++ [.read 0x08 4])).pending =
      feedEvents [.data 0x61616161, .absorb 4, .absorb 1, .data 0x20AC, .codePoint] ++ [.read 0x08 4] := by decide +kernel

/-- One DATA write for two commands, as in P2; and P5: "abc" in groups of 2 and 1. -/
theorem witness_DigestContract :
    (feedBytes [.data 0x61616161, .absorb 4, .absorb 4] State.reset.DATA = some (List.replicate 8 0x61) ∧
      (host (commandWrite (encode .init) :: feedEvents [.data 0x61616161, .absorb 4, .absorb 4] ++
        commandWrite (encode .final) :: [])).pending.length = 5) ∧
    (∀ g ∈ ([(2, 0x6261), (1, 0xFFFFFF63)] : List (Nat × Word)), 1 ≤ g.1 ∧ g.1 ≤ 4) ∧
    ([0x61, 0x62, 0x63] : List Byte) =
      ([(2, 0x6261), (1, 0xFFFFFF63)] : List (Nat × Word)).flatMap (fun g => absorbBytes g.1 g.2) ∧
    (host (commandWrite (encode .init) ::
      (([(2, 0x6261), (1, 0xFFFFFF63)] : List (Nat × Word)).flatMap fun g => absorbAccesses g.1 g.2) ++
      commandWrite (encode .final) :: [])).pending.length = 6 := by decide +kernel

theorem witness_NtlmContract :
    (∀ cp ∈ ([0x70, 0xFFFF, 0x10000] : List Word), validCodePoint cp = true) ∧
    (host (commandWrite (encode .init) :: absorbTextAccesses [0x70, 0xFFFF, 0x10000] ++
      commandWrite (encode .final) :: [])).pending.length = 8 :=
  ⟨List.all_eq_true.mp (by decide), by decide +kernel⟩

/-- A code point and a group against one DATA write for two commands. -/
theorem witness_GroupingInvariance :
    feedBytes [.data 0x0041, .codePoint, .data 0xABCD0041, .absorb 2] 0 = some [0x41, 0x00, 0x41, 0x00] ∧
    feedBytes [.data 0x00000041, .absorb 2, .absorb 2] 0 = some [0x41, 0x00, 0x41, 0x00] ∧
    (accepting 0 (List.replicate 62 0x61) 496).DATA = 0 ∧
    (accepting 0 (List.replicate 62 0x61) 496).DONE = false := by decide +kernel

theorem witness_StepKeepsLengthConsistent :
    (State.consistent { accepting 0x61 [0x61] 8 with pending := [.write 0x00 4 0x00000002] }) ∧
    (State.consistent { finished 0 with pending := [.write 0x00 4 0x00000002] }) ∧
    (∃ t, step { accepting 0x61 [0x61] 8 with pending := [.write 0x00 4 0x00000002] } = .next t) ∧
    (∃ t, step { finished 0 with pending := [.write 0x00 4 0x00000002] } = .next t) := by
  refine ⟨?_, ?_, ⟨_, rfl⟩, ⟨_, rfl⟩⟩ <;> (unfold State.consistent; decide +kernel)

/-- Two states that differ in W, in BUF above FILL and in the draw counter; one steps, one is refused. -/
theorem witness_UnspecifiedPartsNeverShow :
    SameVisible { accepting 0x61 [0x61] 8 with pending := [.write 0x00 4 0x00000002] }
      { accepting 0x61 [0x61, 0x55] 8 with FILL := 1, W := ⟨1, 2, 3, 4⟩, draw := 7, pending := [.write 0x00 4 0x00000002] } ∧
    (∃ t, step { accepting 0x61 [0x61] 8 with pending := [.write 0x00 4 0x00000002] } = .next t) ∧
    (∃ r, step { accepting 0x61 [0x61] 8 with pending := [.read 0x00 1] } = .refused r) := by
  refine ⟨⟨by decide, by decide, by decide, by decide, by decide, by decide, by decide, by decide, by decide, by decide, ?_⟩,
    ⟨_, rfl⟩, ⟨_, rfl⟩⟩
  decide +kernel

/-- Two instances at adjacent bases, one master, and a reset. -/
def twoInstances (schedule : List Turn) : Platform :=
  Platform.start ⟨[0x1000, 0x1100]⟩ [[.write 0x1100 4 0x00000004, .read 0x1108 4]] schedule

theorem witness_InstancesAreIsolated :
    (∃ p', Platform.step (twoInstances [.master 0]) = .next p') ∧
    (∃ p', Platform.step (twoInstances [.reset 1]) = .next p') ∧
    inWindow 0x1100 ⟨0x1000, State.reset⟩ = false ∧ inWindow 0x1100 ⟨0x1100, State.reset⟩ = true :=
  ⟨⟨_, rfl⟩, ⟨_, rfl⟩, by decide, by decide⟩

/-- The first and the last offset of the second window. -/
theorem witness_AccessReachesItsInstance :
    (twoInstances [.master 0]).config.legal = true ∧ (twoInstances [.master 0]).schedule = .master 0 :: [] ∧
    (∃ m, (twoInstances [.master 0]).masters[0]? = some m ∧
      m.queue = .write 0x1100 4 0x00000004 :: [.read 0x1108 4]) ∧
    (twoInstances [.master 0]).slots[1]? = some ⟨0x1100, State.reset⟩ ∧ 0x1100 = 0x1100 + 0x00 ∧ 0x00 ≤ 0xFF ∧
    (∃ b, perform (.write (BitVec.ofNat 8 0x00) 4 0x00000004) State.reset = .next b) ∧
    (0x11FC = 0x1100 + 0xFC ∧ 0xFC ≤ 0xFF ∧ ∃ b, perform (.read (BitVec.ofNat 8 0xFC) 4) State.reset = .next b) :=
  ⟨by decide, rfl, ⟨_, rfl, rfl⟩, rfl, rfl, by decide, ⟨_, rfl⟩, rfl, by decide, _, rfl⟩

/-- After one turn of the master, only the second instance has finished. -/
theorem test_platform_routes :
    (match Platform.step (twoInstances [.master 0]) with
      | .next p => p.slots.map (fun sl => sl.block.DONE)
      | .fault _ => []
      | .refused _ => []) = [false, true] := by decide +kernel

theorem witness_AssemblerRefusesBadOperands :
    ¬ (1 ≤ 0 ∧ 0 ≤ 4) ∧ ¬ (1 ≤ 5 ∧ 5 ≤ 4) ∧ (1 ≤ 4 ∧ 4 ≤ 4 ∧ 2 ^ 32 ≤ 0x100000000) ∧
    (RegName.data.offset % 4 = 0 ∧ RegName.data.offset ≤ 0xFC) ∧
    ((RegName.at 0xFC).offset % 4 = 0 ∧ (RegName.at 0xFC).offset ≤ 0xFC) ∧
    (0x02 % 4 ≠ 0 ∨ 0xFC < 0x02) ∧ (0x100 % 4 ≠ 0 ∨ 0xFC < 0x100) := by decide

theorem witness_AssembledAccessesAreAdmitted :
    assemble [.init, .wr .data 0x61, .absorb 1 none, .final, .rd (.at 0xFC)] =
      .ok [.write 0x00 4 1, .write 0x04 4 0x61, .write 0x00 4 2, .write 0x00 4 4, .read 0xFC 4] := by decide

theorem witness_PseudoLinesAppendTheirBytes : ∀ cp ∈ ([0x00, 0xD7FF, 0x10FFFF] : List Word), validCodePoint cp = true :=
  List.all_eq_true.mp (by decide)

theorem witness_AssembledProgramsReadTheDigest :
    (∃ es, (AsmLine.md4 [0x61, 0x62, 0x63]).accesses = .ok es ∧ (host es).pending = es) ∧
    (∀ cp ∈ ([0x41, 0x1F600] : List Word), validCodePoint cp = true) ∧
    (∃ es, (AsmLine.ntlm [0x41, 0x1F600]).accesses = .ok es ∧ (host es).pending = es) :=
  ⟨⟨_, rfl, rfl⟩, List.all_eq_true.mp (by decide), ⟨_, rfl, rfl⟩⟩

end Sys2Proof.Tests
end

section
/-! The rotation (R10): its value as a number and its bits. -/

namespace Sys2Proof.Machine

theorem rotl32_toNat (v : Word) (s : Nat) :
    (rotl32 v s).toNat = (v.toNat <<< s ||| v.toNat >>> (32 - s)) % 2 ^ 32 := by
  have hlow : v.toNat >>> (32 - s) < 2 ^ 32 := lt_of_le_of_lt (Nat.shiftRight_le _ _) v.isLt
  rw [rotl32, BitVec.toNat_or, BitVec.toNat_shiftLeft, BitVec.toNat_ushiftRight, Nat.or_mod_two_pow,
    Nat.mod_eq_of_lt hlow]

/-- A bit below the amount comes from the top of the word, every other bit from `s` places below. -/
theorem getLsbD_rotl32 (v : Word) (s : Nat) {j : Nat} (hj : j < 32) :
    (rotl32 v s).getLsbD j = if j < s then v.getLsbD (32 - s + j) else v.getLsbD (j - s) := by
  rw [rotl32, BitVec.getLsbD_or, BitVec.getLsbD_shiftLeft, BitVec.getLsbD_ushiftRight]
  split
  case isTrue h => simp [h]
  case isFalse h => simp [h, hj, BitVec.getLsbD_of_ge v (32 - s + j) (by omega)]

theorem getLsbD_rotl32_add_mod (v : Word) {s i : Nat} (hs : s < 32) (hi : i < 32) :
    (rotl32 v s).getLsbD ((i + s) % 32) = v.getLsbD i := by
  rw [getLsbD_rotl32 v s (Nat.mod_lt _ (by decide))]
  rcases Nat.lt_or_ge (i + s) 32 with hstay | hwrap
  · rw [Nat.mod_eq_of_lt hstay, if_neg (by omega), Nat.add_sub_cancel]
  · have hmod : (i + s) % 32 = i + s - 32 := by omega
    rw [hmod, if_pos (by omega)]
    congr 1
    omega

/-- The amounts of the 48 rows are the eight the block has (R10, R114). -/
theorem stepRow_amount_mem : ∀ n < 48, (stepRow n).s ∈ [3, 5, 7, 9, 11, 13, 15, 19] := by decide

end Sys2Proof.Machine
end

section
/-! How the platform routes an access: legal bases give disjoint windows, so the instance whose window holds an address is
found, and the offset it decodes is the distance from its base (R12, R50). -/

namespace Sys2Proof.Machine

theorem config_legal_iff (c : Config) :
    c.legal = true ↔ c.bases ≠ [] ∧ (∀ b ∈ c.bases, b % 256 = 0) ∧ c.bases.Nodup := by
  simp [Config.legal, windowBytes, and_assoc]

theorem inWindow_iff (addr : Nat) (sl : Slot) :
    inWindow addr sl = true ↔ sl.base ≤ addr ∧ addr < sl.base + 256 :=
  decide_eq_true_iff

theorem Platform.base_mod_of_legal {p : Platform} (hlegal : p.config.legal = true) {i : Nat} {sl : Slot}
    (hsl : p.slots[i]? = some sl) : sl.base % 256 = 0 := by
  obtain ⟨-, haligned, -⟩ := (config_legal_iff _).mp hlegal
  exact haligned _ (List.mem_map_of_mem (List.mem_of_getElem? hsl))

/-- Two windows that share an address are one instance's: aligned windows at different bases do not meet (R50). -/
theorem Platform.index_eq_of_inWindow {p : Platform} (hlegal : p.config.legal = true) {addr i j : Nat} {sl sl' : Slot}
    (hi : p.slots[i]? = some sl) (hj : p.slots[j]? = some sl')
    (hin : inWindow addr sl = true) (hin' : inWindow addr sl' = true) : i = j := by
  have hbase := base_mod_of_legal hlegal hi
  have hbase' := base_mod_of_legal hlegal hj
  rw [inWindow_iff] at hin hin'
  have hsame : sl.base = sl'.base := by omega
  obtain ⟨-, -, hnodup⟩ := (config_legal_iff _).mp hlegal
  have hlt : i < p.config.bases.length := by
    simpa [Platform.config] using (List.getElem?_eq_some_iff.mp hi).1
  exact (List.getElem?_inj hlt hnodup).mp (by simp [Platform.config, hi, hj, hsame])

theorem Platform.findIdx?_inWindow {p : Platform} (hlegal : p.config.legal = true) {addr i : Nat} {sl : Slot}
    (hi : p.slots[i]? = some sl) (hin : inWindow addr sl = true) :
    p.slots.findIdx? (inWindow addr) = some i := by
  obtain ⟨hlt, hget⟩ := List.getElem?_eq_some_iff.mp hi
  refine List.findIdx?_eq_some_iff_getElem.mpr ⟨hlt, by rw [hget]; exact hin, fun j hj hinj => ?_⟩
  have hji := index_eq_of_inWindow hlegal (List.getElem?_eq_getElem (hj.trans hlt)) hi hinj hin
  omega

/-- The event an access is for a block that decodes it at offset `off` of its window. -/
def BusAccess.atOffset (a : BusAccess) (off : Offset) : Event :=
  match a with
  | .read _ n => .read off n
  | .write _ n v => .write off n v

theorem BusAccess.toEvent_eq_atOffset {a : BusAccess} {base off : Nat} (hbase : base % 256 = 0)
    (haddr : a.addr = base + off) : a.toEvent = a.atOffset (BitVec.ofNat 8 off) := by
  have hoff : BitVec.ofNat 8 a.addr = BitVec.ofNat 8 off := by
    apply BitVec.eq_of_toNat_eq
    rw [BitVec.toNat_ofNat, BitVec.toNat_ofNat, haddr]
    omega
  rw [← hoff]
  cases a <;> rfl

/-- A master's turn whose access an instance performs: the access is taken from the master's queue, the block is replaced in
its slot, and what a read returned goes to that master. -/
theorem Platform.step_of_access {p : Platform} {k i : Nat} {rest : List Turn} {m : Master} {a : BusAccess}
    {queue : List BusAccess} {sl : Slot} {b : State}
    (hturn : p.schedule = .master k :: rest) (hm : p.masters[k]? = some m) (hqueue : m.queue = a :: queue)
    (hroute : p.slots.findIdx? (inWindow a.addr) = some i) (hsl : p.slots[i]? = some sl)
    (hperform : perform a.toEvent sl.block = .next b) :
    p.step = .next ⟨p.slots.set i ⟨sl.base, b⟩,
      p.masters.set k ⟨queue, m.results ++ returnedBy a.toEvent sl.block⟩, rest⟩ := by
  simp only [Platform.step, hturn, Platform.masterTurn, hm, hqueue, Platform.serve, hroute, hsl, Platform.serveAt,
    hperform]

end Sys2Proof.Machine
end

section
/-! The statements of 00_scope.md. -/

namespace Sys2Proof.Proofs

open Sys2Proof.Machine

/-- Settles O31, from the value of the rotation as a number, its bits, and the 48 rows of the step table. -/
theorem rotationIsCircular : Obligations.RotationIsCircular :=
  ⟨fun v s _ hs => ⟨rotl32_toNat v s, fun _ hi => getLsbD_rotl32_add_mod v (by omega) hi⟩, stepRow_amount_mem⟩

/-- Settles O49: windows at legal bases are disjoint, so the address selects this instance, and an aligned base leaves the
offset bits alone. -/
theorem accessReachesItsInstance : Obligations.AccessReachesItsInstance := by
  intro p k i off rest m a queue sl b hlegal hturn hm hqueue hsl haddr hoff hperform
  have hin : inWindow a.addr sl = true := by rw [inWindow_iff]; omega
  have hevent : a.toEvent = a.atOffset (BitVec.ofNat 8 off) :=
    BusAccess.toEvent_eq_atOffset (Platform.base_mod_of_legal hlegal hsl) haddr
  have hblock : perform a.toEvent sl.block = .next b := by rw [hevent]; exact hperform
  have hstep := Platform.step_of_access hturn hm hqueue (Platform.findIdx?_inWindow hlegal hsl hin) hsl hblock
  have hk : k < p.masters.length := (List.getElem?_eq_some_iff.mp hm).1
  refine ⟨_, hstep, rfl, rfl, fun j hj => List.getElem?_set_ne hj.symm, _, List.getElem?_set_self hk, rfl, ?_⟩
  rw [hevent]
  cases a <;> rfl

end Sys2Proof.Proofs
end

section
/-! The relation between LEN, FILL and DONE (R26, R27, R142, R145): which operations keep it. -/

namespace Sys2Proof.Machine

theorem State.consistent_iff_of_done {s : State} (h : s.DONE = true) : s.consistent ↔ s.FILL = 0 := by
  simp [State.consistent, h]

theorem State.consistent_iff_of_accepting {s : State} (h : s.DONE = false) :
    s.consistent ↔ s.LEN.toNat % 512 = 8 * s.FILL.val := by
  simp [State.consistent, h]

/-- Only DONE, FILL and LEN count. -/
theorem State.consistent_congr {s t : State} (hdone : t.DONE = s.DONE) (hfill : t.FILL = s.FILL)
    (hlen : t.LEN = s.LEN) : t.consistent ↔ s.consistent := by
  simp [State.consistent, hdone, hfill, hlen]

theorem raiseError_consistent (k : ErrorKind) (s : State) : (raiseError k s).consistent ↔ s.consistent :=
  State.consistent_congr (raiseError_DONE k s) (raiseError_FILL k s) (raiseError_LEN k s)

/-- LEN counts 8 for each byte and FILL 1, modulo 512 and modulo 64 (R140, R141). -/
theorem appendMsgs_consistent (bs : List Byte) {s : State} (hdone : s.DONE = false) (hs : s.consistent) :
    (appendMsgs bs s).consistent := by
  rw [State.consistent_iff_of_accepting hdone] at hs
  rw [State.consistent_iff_of_accepting ((appendMsgs_sameAside bs s).done.trans hdone), appendMsgs_LEN,
    appendMsgs_FILL, BitVec.toNat_add, BitVec.toNat_ofNat]
  omega

theorem setDone_consistent {s : State} (h : s.FILL = 0) : (setDone s).consistent :=
  (State.consistent_iff_of_done rfl).mpr h

theorem afterCommand_consistent (i : Instr) {s : State} (hs : s.consistent) : (afterCommand i s).consistent := by
  rcases afterCommand_cases i s with ⟨-, h⟩ | ⟨-, -, h⟩ | ⟨-, -, -, h⟩ | ⟨bs, -, hdone, h⟩ | ⟨bs, -, -, -, hdone, h⟩ |
    ⟨-, -, h⟩ <;> rw [h]
  · exact (State.consistent_iff_of_accepting rfl).mpr rfl
  · exact (raiseError_consistent _ s).mpr hs
  · exact (raiseError_consistent _ s).mpr hs
  · exact appendMsgs_consistent bs hdone hs
  · exact appendMsgs_consistent bs hdone hs
  · exact setDone_consistent (padMessage_FILL s)

theorem perform_consistent {e : Event} {s t : State} (hs : s.consistent) (h : perform e s = .next t) :
    t.consistent := by
  rcases perform_cases h with ⟨-, rfl⟩ | ⟨off, -, -, rfl⟩ | ⟨w, i, -, -, rfl⟩ | ⟨w, r, -, -, rfl⟩ | ⟨v, -, rfl⟩ |
    ⟨off, v, -, -, -, -, rfl⟩
  · exact (State.consistent_iff_of_accepting rfl).mpr rfl
  · exact hs
  · exact afterCommand_consistent i hs
  · exact (raiseError_consistent _ s).mpr hs
  · exact hs
  · exact hs

end Sys2Proof.Machine
end

section
/-! What the spec leaves unspecified does not spread (R24, R25, R116): every operation takes states that agree but for it to
states that agree but for it. -/

namespace Sys2Proof.Machine

/-- `f` takes states that look the same to states that look the same. -/
def KeepsSameVisible (f : State → State) : Prop := ∀ ⦃s s' : State⦄, SameVisible s s' → SameVisible (f s) (f s')

theorem setPending_keepsSameVisible (es : List Event) : KeepsSameVisible (setPending es) :=
  fun _ _ h => { h with pending := rfl }

theorem setData_keepsSameVisible (v : Word) : KeepsSameVisible (setData v) := fun _ _ h => { h with data := rfl }

theorem setDone_keepsSameVisible : KeepsSameVisible setDone := fun _ _ h => { h with done := rfl }

theorem addLength_keepsSameVisible : KeepsSameVisible addLength :=
  fun _ _ h => { h with len := congrArg (· + 8) h.len }

theorem raiseError_keepsSameVisible (k : ErrorKind) : KeepsSameVisible (raiseError k) :=
  match k with
  | .cmd => fun _ _ h => { h with errCmd := rfl }
  | .seq => fun _ _ h => { h with errSeq := rfl }
  | .enc => fun _ _ h => { h with errEnc := rfl }

/-- With FILL = 0 no byte of BUF counts. -/
theorem SameVisible.buf_of_empty {s t : State} (h : s.FILL = 0) (i : Fin 64) (hi : i < s.FILL) : s.BUF[i] = t.BUF[i] := by
  rw [h] at hi
  exact absurd hi (Fin.not_lt_zero i)

theorem beginMessage_keepsSameVisible : KeepsSameVisible beginMessage := fun _ _ h =>
  { acc := rfl, fill := rfl, len := rfl, done := rfl, errCmd := rfl, errEnc := rfl, errSeq := rfl
    data := h.data, pending := h.pending, observed := h.observed, buf := SameVisible.buf_of_empty rfl }

theorem hardReset_keepsSameVisible : KeepsSameVisible hardReset := fun _ _ h =>
  { acc := rfl, fill := rfl, len := rfl, done := rfl, errCmd := rfl, errEnc := rfl, errSeq := rfl
    data := rfl, pending := h.pending, observed := h.observed, buf := SameVisible.buf_of_empty rfl }

/-- The bytes below FILL and the one stored at FILL agree. -/
theorem SameVisible.storeByte_BUF_eq {s s' : State} (h : SameVisible s s') (b : Byte) (i : Fin 64)
    (hi : i.val ≤ s.FILL.val) : (storeByte b s).BUF[i] = (storeByte b s').BUF[i] := by
  rw [storeByte_BUF, storeByte_BUF, Fin.getElem_fin, Fin.getElem_fin, Vector.getElem_set,
    Vector.getElem_set, ← h.fill]
  split
  · rfl
  · exact h.buf i (by omega)

/-- The byte that fills the block makes the two blocks equal. -/
theorem SameVisible.storeByte_BUF_eq_of_full {s s' : State} (h : SameVisible s s') (b : Byte)
    (hfull : ¬ s.FILL.val + 1 < 64) : (storeByte b s).BUF = (storeByte b s').BUF :=
  Vector.ext fun i hi => h.storeByte_BUF_eq b ⟨i, hi⟩ (by simp; omega)

theorem SameVisible.appendRaw_S_eq {s s' : State} (h : SameVisible s s') (b : Byte) :
    (appendRaw b s).S = (appendRaw b s').S := by
  by_cases hlt : s.FILL.val + 1 < 64
  · rw [appendRaw_of_lt b s hlt, appendRaw_of_lt b s' (h.fill ▸ hlt)]
    exact h.acc
  · rw [appendRaw_of_full b s hlt, appendRaw_of_full b s' (h.fill ▸ hlt), setFill_S, setFill_S, leaveScratch_S,
      leaveScratch_S, compress_S, compress_S, h.storeByte_BUF_eq_of_full b hlt, storeByte_S, storeByte_S, h.acc]

theorem SameVisible.appendRaw_BUF_eq {s s' : State} (h : SameVisible s s') (b : Byte) (i : Fin 64)
    (hi : i < (appendRaw b s).FILL) : (appendRaw b s).BUF[i] = (appendRaw b s').BUF[i] := by
  have hF := appendRaw_FILL b s
  by_cases hlt : s.FILL.val + 1 < 64
  · rw [appendRaw_of_lt b s hlt, appendRaw_of_lt b s' (h.fill ▸ hlt), setFill_BUF, setFill_BUF]
    exact h.storeByte_BUF_eq b i (by omega)
  · omega

theorem appendRaw_keepsSameVisible (b : Byte) : KeepsSameVisible (appendRaw b) := by
  intro s s' h
  have hside := appendRaw_sameAside b s
  have hside' := appendRaw_sameAside b s'
  have hfill : (appendRaw b s).FILL = (appendRaw b s').FILL := by
    apply Fin.ext
    rw [appendRaw_FILL, appendRaw_FILL, h.fill]
  exact
    { acc := h.appendRaw_S_eq b, fill := hfill, len := by rw [appendRaw_LEN, appendRaw_LEN, h.len]
      done := by rw [hside.done, hside'.done, h.done]
      errCmd := by rw [hside.errCmd, hside'.errCmd, h.errCmd]
      errEnc := by rw [hside.errEnc, hside'.errEnc, h.errEnc]
      errSeq := by rw [hside.errSeq, hside'.errSeq, h.errSeq]
      data := by rw [hside.data, hside'.data, h.data]
      pending := by rw [hside.pending, hside'.pending, h.pending]
      observed := by rw [hside.observed, hside'.observed, h.observed]
      buf := h.appendRaw_BUF_eq b }

theorem appendMsg_keepsSameVisible (b : Byte) : KeepsSameVisible (appendMsg b) :=
  fun _ _ h => addLength_keepsSameVisible (appendRaw_keepsSameVisible b h)

/-- Appending byte by byte keeps what one byte keeps. -/
theorem foldl_keepsSameVisible {f : Byte → State → State} (hf : ∀ b, KeepsSameVisible (f b)) (bs : List Byte) :
    KeepsSameVisible fun s => bs.foldl (fun s b => f b s) s := by
  induction bs with
  | nil => exact fun _ _ h => h
  | cons b bs ih => exact fun _ _ h => ih (hf b h)

theorem appendRaws_keepsSameVisible (bs : List Byte) : KeepsSameVisible (appendRaws bs) :=
  foldl_keepsSameVisible appendRaw_keepsSameVisible bs

theorem appendMsgs_keepsSameVisible (bs : List Byte) : KeepsSameVisible (appendMsgs bs) :=
  foldl_keepsSameVisible appendMsg_keepsSameVisible bs

/-- FILL and LEN, which the padding's bytes depend on, are seen. -/
theorem padMessage_keepsSameVisible : KeepsSameVisible padMessage := by
  intro s s' h
  rw [padMessage_eq, padMessage_eq, ← h.fill, ← h.len]
  exact appendRaws_keepsSameVisible _ h

theorem absorbCodePoint_keepsSameVisible : KeepsSameVisible absorbCodePoint := by
  intro s s' h
  simp only [absorbCodePoint, ← h.data]
  cases encodeCodePoint s.DATA with
  | some bs => exact appendMsgs_keepsSameVisible bs h
  | none => exact raiseError_keepsSameVisible .enc h

/-- The guard reads DONE, which is seen. -/
theorem whileAccepting_keepsSameVisible {act : State → State} (hact : KeepsSameVisible act) :
    KeepsSameVisible (whileAccepting act) := by
  intro s s' h
  cases hdone : s.DONE with
  | true =>
    rw [whileAccepting_done act hdone, whileAccepting_done act (h.done ▸ hdone)]
    exact raiseError_keepsSameVisible .seq h
  | false =>
    rw [whileAccepting_accepting act hdone, whileAccepting_accepting act (h.done ▸ hdone)]
    exact hact h

theorem afterCommand_keepsSameVisible (i : Instr) : KeepsSameVisible (afterCommand i) :=
  match i with
  | .init => beginMessage_keepsSameVisible
  | .absorb c => whileAccepting_keepsSameVisible fun s s' h => by
      rw [← h.data]
      exact appendMsgs_keepsSameVisible _ h
  | .absorbCp => whileAccepting_keepsSameVisible absorbCodePoint_keepsSameVisible
  | .final => whileAccepting_keepsSameVisible fun _ _ h => setDone_keepsSameVisible (padMessage_keepsSameVisible h)

theorem SameVisible.readReg_eq {s s' : State} (h : SameVisible s s') (r : Reg) : readReg r s = readReg r s' := by
  cases r <;> simp only [readReg, statusWord, h.acc, h.fill, h.len, h.done, h.errCmd, h.errEnc, h.errSeq, h.data]

theorem SameVisible.recordRead {s s' : State} (h : SameVisible s s') (r : Reg) :
    SameVisible (recordRead (readReg r s) s) (recordRead (readReg r s') s') :=
  { h with observed := by rw [recordRead_observed, recordRead_observed, h.observed, h.readReg_eq] }

/-- Two outcomes no host can tell apart: next states that look the same, or one refusal. -/
inductive SameOutcome : Host.Outcome State Fault Refusal → Host.Outcome State Fault Refusal → Prop
  | next {t t' : State} (h : SameVisible t t') : SameOutcome (.next t) (.next t')
  | refused (r : Refusal) : SameOutcome (.refused r) (.refused r)

theorem SameOutcome.of_next {t : State} {o : Host.Outcome State Fault Refusal} (h : SameOutcome (.next t) o) :
    ∃ t', o = .next t' ∧ SameVisible t t' := by
  cases h with
  | next hv => exact ⟨_, rfl, hv⟩

theorem SameOutcome.of_refused {r : Refusal} {o : Host.Outcome State Fault Refusal} (h : SameOutcome (.refused r) o) :
    o = .refused r := by
  cases h
  rfl

theorem performCommand_sameOutcome (w : Word) {s s' : State} (h : SameVisible s s') :
    SameOutcome (performCommand w s) (performCommand w s') := by
  cases hw : decode w with
  | ok i =>
    rw [performCommand_ok hw, performCommand_ok hw]
    exact .next (afterCommand_keepsSameVisible i h)
  | error r =>
    rw [performCommand_error hw, performCommand_error hw]
    exact .next (raiseError_keepsSameVisible .cmd h)

theorem writeReg_sameOutcome (r : Reg) (v : Word) {s s' : State} (h : SameVisible s s') :
    SameOutcome (writeReg r v s) (writeReg r v s') := by
  by_cases hcmd : r = .cmd
  · subst hcmd
    exact performCommand_sameOutcome v h
  · by_cases hdata : r = .data
    · subst hdata
      exact .next (setData_keepsSameVisible v h)
    · rw [writeReg_of_ne hcmd hdata, writeReg_of_ne hcmd hdata]
      exact .next h

theorem perform_sameOutcome (e : Event) {s s' : State} (h : SameVisible s s') :
    SameOutcome (perform e s) (perform e s') := by
  cases e with
  | reset => exact .next (hardReset_keepsSameVisible h)
  | read off n =>
    simp only [perform]
    split
    · exact .next (h.recordRead _)
    · exact .refused _
  | write off n v =>
    simp only [perform]
    split
    · exact writeReg_sameOutcome _ v h
    · exact .refused _

theorem step_sameOutcome {s s' : State} (h : SameVisible s s') : SameOutcome (step s) (step s') := by
  cases hp : s.pending with
  | nil =>
    rw [step_of_nil hp, step_of_nil (h.pending ▸ hp)]
    exact .next h
  | cons e rest =>
    rw [step_of_cons hp, step_of_cons (h.pending ▸ hp)]
    exact perform_sameOutcome e (setPending_keepsSameVisible rest h)

end Sys2Proof.Machine
end

section
/-! The decoder: the count an ABSORB word gives, and the word a table entry stands for. -/

namespace Sys2Proof.Machine

theorem decode_absorb_count_le {w : Word} {c : Nat} (h : decode w = .ok (.absorb c)) : c ≤ 4 := by
  have hn := (countField w).isLt
  simp only [decode, withoutCount] at h
  split_ifs at h <;> cases h
  omega

theorem decode_of_decodeTableWord {n v : Nat} {i : Instr} (h : decodeTableWord n v = some i) :
    decode (tableWord n v) = .ok i := by
  rw [decodeTableWord] at h
  split_ifs at h
  cases hw : decode (tableWord n v) with
  | ok j =>
    rw [hw] at h
    simpa [Except.toOption] using h
  | error r =>
    rw [hw] at h
    simp [Except.toOption] at h

end Sys2Proof.Machine
end

section
/-! DATA (R30): what an event leaves in it. -/

namespace Sys2Proof.Machine

/-- Only a reset and a write to DATA change DATA. -/
theorem perform_DATA_kept {e : Event} {s t : State} (h : perform e s = .next t) (hreset : e ≠ .reset)
    (hwrite : ∀ v, e ≠ .write 0x04 4 v) : t.DATA = s.DATA := by
  rcases perform_cases h with ⟨rfl, -⟩ | ⟨off, -, -, rfl⟩ | ⟨w, i, -, -, rfl⟩ | ⟨w, r, -, -, rfl⟩ | ⟨v, rfl, -⟩ |
    ⟨off, v, -, -, -, -, rfl⟩
  · exact absurd rfl hreset
  · rfl
  · exact (afterCommand_port i s).1
  · exact raiseError_DATA .cmd s
  · exact absurd rfl (hwrite v)
  · rfl

end Sys2Proof.Machine
end

section
/-! The register window (R34 to R41): STATUS as a number, and where the HEX registers and the reserved offsets lie. -/

namespace Sys2Proof.Machine

/-- A bit of a word, from the word's value. -/
theorem getLsbD_eq_of_toNat {w : Word} {i : Nat} {b : Bool} (h : w.toNat / 2 ^ i % 2 = b.toNat) : w.getLsbD i = b := by
  rw [BitVec.getLsbD, Nat.testBit_eq_decide_div_mod_eq, h]
  cases b <;> rfl

theorem extractLsb'_eq_zero_of_toNat {w : Word} {lo n : Nat} (h : w.toNat / 2 ^ lo % 2 ^ n = 0) :
    w.extractLsb' lo n = 0 := by
  apply BitVec.eq_of_toNat_eq
  rw [BitVec.extractLsb'_toNat, Nat.shiftRight_eq_div_pow, h]
  rfl

theorem toNat_append_ofBool {n : Nat} (x : BitVec n) (b : Bool) :
    (x ++ BitVec.ofBool b).toNat = 2 * x.toNat + b.toNat := by
  rw [BitVec.toNat_append, BitVec.toNat_ofBool, ← Nat.shiftLeft_add_eq_or_of_lt b.toNat_lt, Nat.shiftLeft_eq]
  omega

/-- STATUS is FILL from bit 8 on and the four flags below (R36). -/
theorem statusWord_toNat (s : State) :
    (statusWord s).toNat =
      256 * s.FILL.val + 8 * s.ERR_SEQ.toNat + 4 * s.ERR_ENC.toNat + 2 * s.ERR_CMD.toNat + s.DONE.toNat := by
  have hfill := s.FILL.isLt
  have hdone := s.DONE.toNat_lt
  have hcmd := s.ERR_CMD.toNat_lt
  have henc := s.ERR_ENC.toNat_lt
  have hseq := s.ERR_SEQ.toNat_lt
  have hgap : (BitVec.ofNat 6 s.FILL.val ++ 0#4).toNat = 16 * s.FILL.val := by
    rw [BitVec.toNat_append, BitVec.toNat_ofNat, BitVec.toNat_ofNat, Nat.zero_mod, Nat.or_zero, Nat.shiftLeft_eq]
    omega
  rw [statusWord, BitVec.toNat_setWidth, toNat_append_ofBool, toNat_append_ofBool, toNat_append_ofBool,
    toNat_append_ofBool, hgap]
  omega

theorem regAt_hex (j : Fin 8) : regAt (BitVec.ofNat 8 (0x30 + 4 * j.val)) = .hex j := by revert j; decide

theorem regAt_eq_reserved {off : Offset} (halign : off.toNat % 4 = 0)
    (hrange : (0x14 ≤ off.toNat ∧ off.toNat ≤ 0x1C) ∨ 0x50 ≤ off.toNat) : regAt off = .reserved := by
  simp only [regAt]
  repeat rw [if_neg (by omega)]

end Sys2Proof.Machine
end

section
/-! What the step does to S (R22): a block compressed where appended bytes make it whole, and FINAL's padding blocks. -/

namespace Sys2Proof.Machine

/-- Bytes that do not fill the block leave S alone (R140). -/
theorem appendRaws_S_of_fits (bs : List Byte) (s : State) (h : s.FILL.val + bs.length < 64) :
    (appendRaws bs s).S = s.S := by
  rw [(appendRaws_chain bs s).1, Nat.div_eq_of_lt h, compressBlocks_zero]

/-- Bytes that fill the block once compress it (R140). -/
theorem appendRaws_S_of_fills (bs : List Byte) (s : State) (hge : 64 ≤ s.FILL.val + bs.length)
    (hlt : s.FILL.val + bs.length < 128) : (appendRaws bs s).S = compressBlock s.S (blockWith bs s) := by
  have hone : (s.FILL.val + bs.length) / 64 = 0 + 1 := by omega
  rw [(appendRaws_chain bs s).1, hone, compressBlocks_succ, compressBlocks_zero]
  rfl

/-- Bytes that complete the block and a whole block after it compress the one and then the other (R140). -/
theorem appendRaws_S_of_two_blocks (as bs : List Byte) (s : State) (has : s.FILL.val + as.length = 64)
    (hbs : bs.length = 64) :
    (appendRaws (as ++ bs) s).S = compressBlock (compressBlock s.S (blockWith as s)) (toBlock bs) := by
  have hempty : (appendRaws as s).FILL = 0 := by
    apply Fin.ext
    rw [appendRaws_FILL, has]
    rfl
  have hblock : blockWith bs (appendRaws as s) = toBlock bs := by
    rw [blockWith, ← currentBytes, currentBytes_of_FILL_zero hempty, List.nil_append]
  rw [appendRaws_append, appendRaws_S_of_fills _ _ (by omega) (by rw [hempty, hbs]; decide), hblock,
    appendRaws_S_of_fills as s has.ge (by omega)]

/-- Message bytes that change S make the block whole, and S is compressed over it. -/
theorem appendMsgs_S_of_ne {bs : List Byte} {s : State} (hlen : bs.length ≤ 64) (hne : (appendMsgs bs s).S ≠ s.S) :
    64 ≤ s.FILL.val + bs.length ∧ (appendMsgs bs s).S = compressBlock s.S (blockWith bs s) := by
  have hfill := s.FILL.isLt
  rw [appendMsgs_S] at hne ⊢
  have hge : 64 ≤ s.FILL.val + bs.length := by
    by_contra hlt
    exact hne (appendRaws_S_of_fits bs s (by omega))
  exact ⟨hge, appendRaws_S_of_fills bs s hge (by omega)⟩

/-- Up to FILL = 55 the padding ends in the current block (R145, R146). -/
theorem padMessage_S_of_le (s : State) (h : s.FILL.val ≤ 55) :
    (padMessage s).S = compressBlock s.S (firstPaddingBlock s) := by
  have hzeros : (119 - s.FILL.val) % 64 = 55 - s.FILL.val := by omega
  rw [padMessage_eq, hzeros, appendRaws_S_of_fills _ s (by simp; omega) (by simp; omega), firstPaddingBlock, if_pos h]
  rfl

/-- From FILL = 56 on the padding fills the current block and one more (R145, R146). -/
theorem padMessage_S_of_ge (s : State) (h : 56 ≤ s.FILL.val) :
    (padMessage s).S = compressBlock (compressBlock s.S (firstPaddingBlock s)) (secondPaddingBlock s) := by
  have hfill := s.FILL.isLt
  have hzeros : (119 - s.FILL.val) % 64 = 63 - s.FILL.val + 56 := by omega
  have hbytes : 0x80 :: List.replicate ((119 - s.FILL.val) % 64) 0x00 ++ lengthBytes s.LEN =
      (0x80 :: List.replicate (63 - s.FILL.val) 0x00) ++ (List.replicate 56 0x00 ++ lengthBytes s.LEN) := by
    rw [hzeros, List.replicate_add]
    simp
  rw [padMessage_eq, hbytes, appendRaws_S_of_two_blocks _ _ s (by simp; omega) (by simp), firstPaddingBlock,
    if_neg (by omega)]
  rfl

/-- A command that changes S is INIT, or, while accepting, compresses the block its bytes make whole or its padding blocks
(R22). -/
theorem afterCommand_S_of_ne {i : Instr} {s : State} (hcount : ∀ c, i = .absorb c → c ≤ 4)
    (hne : (afterCommand i s).S ≠ s.S) :
    (i = .init ∧ (afterCommand i s).S = Quad.initial) ∨
    (s.DONE = false ∧
      ((∃ c, i = .absorb c ∧ 64 ≤ s.FILL.val + c ∧
          (afterCommand i s).S = compressBlock s.S (blockWith (absorbBytes c s.DATA) s)) ∨
        (i = .absorbCp ∧ validCodePoint s.DATA = true ∧ 64 ≤ s.FILL.val + (utf16leBytes s.DATA).length ∧
          (afterCommand i s).S = compressBlock s.S (blockWith (utf16leBytes s.DATA) s)) ∨
        (i = .final ∧ s.FILL.val ≤ 55 ∧ (afterCommand i s).S = compressBlock s.S (firstPaddingBlock s)) ∨
        (i = .final ∧ 56 ≤ s.FILL.val ∧
          (afterCommand i s).S =
            compressBlock (compressBlock s.S (firstPaddingBlock s)) (secondPaddingBlock s)))) := by
  rcases afterCommand_cases i s with ⟨rfl, h⟩ | ⟨-, -, h⟩ | ⟨-, -, -, h⟩ | ⟨_, ⟨c, rfl, rfl⟩, hdone, h⟩ |
    ⟨_, rfl, hvalid, rfl, hdone, h⟩ | ⟨rfl, hdone, h⟩ <;> rw [h] at hne ⊢
  · exact .inl ⟨rfl, rfl⟩
  · exact absurd (raiseError_S _ s) hne
  · exact absurd (raiseError_S _ s) hne
  · have hc := hcount c rfl
    obtain ⟨hfills, hS⟩ := appendMsgs_S_of_ne (by rw [absorbBytes_length]; omega) hne
    rw [absorbBytes_length] at hfills
    exact .inr ⟨hdone, .inl ⟨c, rfl, hfills, hS⟩⟩
  · obtain ⟨hfills, hS⟩ := appendMsgs_S_of_ne ((utf16leBytes_length_le s.DATA).trans (by decide)) hne
    exact .inr ⟨hdone, .inr (.inl ⟨rfl, hvalid, hfills, hS⟩)⟩
  · rw [setDone_S]
    rcases Nat.lt_or_ge s.FILL.val 56 with hone | htwo
    · have hle : s.FILL.val ≤ 55 := Nat.le_of_lt_succ hone
      exact .inr ⟨hdone, .inr (.inr (.inl ⟨rfl, hle, padMessage_S_of_le s hle⟩))⟩
    · exact .inr ⟨hdone, .inr (.inr (.inr ⟨rfl, htwo, padMessage_S_of_ge s htwo⟩))⟩

end Sys2Proof.Machine
end

section
/-! The statements of 10_state.md. -/

namespace Sys2Proof.Proofs

open Sys2Proof.Machine

/-- Settles O45, from what each event can do: message bytes move LEN and FILL together, FINAL's padding empties the
block, and the rest leave the three alone or clear them. -/
theorem stepKeepsLengthConsistent : Obligations.StepKeepsLengthConsistent := by
  intro s t hs h
  rcases step_cases h with ⟨-, rfl⟩ | ⟨e, rest, -, he⟩
  · exact hs
  · have hs' : (setPending rest s).consistent := hs
    exact perform_consistent hs' he

/-- Settles O47: outcomes of states that look the same look the same (`step_sameOutcome`), since no operation reads W, or a
byte of BUF at FILL or above that it has not just written. -/
theorem unspecifiedPartsNeverShow : Obligations.UnspecifiedPartsNeverShow := by
  intro s s' h
  have ho := step_sameOutcome h
  exact ⟨fun t ht => (ht ▸ ho).of_next, fun r hr => (hr ▸ ho).of_refused⟩

/-- Settles O9: the two accesses that write DATA, and `perform_DATA_kept` for every other step. -/
theorem dataChangesOnlyByHostWriteOrReset : Obligations.DataChangesOnlyByHostWriteOrReset := by
  intro s t h
  refine ⟨fun v rest hp => ?_, fun rest hp => ?_, fun hwrite hreset => ?_⟩
  · rw [step_of_cons hp, perform_data] at h
    cases h
    rfl
  · rw [step_of_cons hp] at h
    cases h
    rfl
  · rcases step_cases h with ⟨-, rfl⟩ | ⟨e, rest, hp, he⟩
    · rfl
    · exact perform_DATA_kept (s := setPending rest s) he (fun heq => hreset rest (heq ▸ hp))
        (fun v heq => hwrite v rest (heq ▸ hp))

/-- Settles O12, from the value of STATUS as a number. -/
theorem statusLayout : Obligations.StatusLayout := by
  refine ⟨fun s => ?_, by decide, fun s v rest hp => ?_⟩
  · rw [show readReg (regAt 0x08) s = statusWord s from rfl]
    have hval := statusWord_toNat s
    have hfill := s.FILL.isLt
    have hdone := s.DONE.toNat_lt
    have hcmd := s.ERR_CMD.toNat_lt
    have henc := s.ERR_ENC.toNat_lt
    have hseq := s.ERR_SEQ.toNat_lt
    refine ⟨getLsbD_eq_of_toNat ?_, getLsbD_eq_of_toNat ?_, getLsbD_eq_of_toNat ?_, getLsbD_eq_of_toNat ?_,
      extractLsb'_eq_zero_of_toNat ?_, ?_, extractLsb'_eq_zero_of_toNat ?_⟩
    case refine_6 => rw [BitVec.extractLsb'_toNat, Nat.shiftRight_eq_div_pow]; omega
    all_goals omega
  · rw [step_of_cons hp, perform_write_other (by decide) (by decide) (by decide)]
    rfl

/-- Settles O36: of the events only a reset and a command change S, and `afterCommand_S_of_ne` says how a command does. -/
theorem accumulatorWrittenThreeWays : Obligations.AccumulatorWrittenThreeWays := by
  intro s t h hne
  rcases step_cases h with ⟨-, rfl⟩ | ⟨e, rest, hp, he⟩
  · exact absurd rfl hne
  · rcases perform_cases he with ⟨rfl, rfl⟩ | ⟨off, -, -, rfl⟩ | ⟨w, i, rfl, hw, rfl⟩ | ⟨w, r, -, -, rfl⟩ | ⟨v, -, rfl⟩ |
      ⟨off, v, -, -, -, -, rfl⟩
    · exact .inl ⟨rfl, .inl ⟨rest, hp⟩⟩
    · exact absurd rfl hne
    · rcases afterCommand_S_of_ne (fun c hi => decode_absorb_count_le (hi ▸ hw)) hne with ⟨rfl, hS⟩ | ⟨hdone, hS⟩
      · exact .inl ⟨hS, .inr ⟨w, rest, hp, hw⟩⟩
      · exact .inr ⟨w, rest, i, hp, hw, hdone, hS⟩
    · exact absurd (raiseError_S _ _) hne
    · exact absurd rfl hne
    · exact absurd rfl hne

/-- Settles O4, from what `perform` does with the write of a legal word to CMD and with an aligned read. -/
theorem cmdWritePerformsCommand : Obligations.CmdWritePerformsCommand := by
  refine ⟨fun s w i rest hp hw => ?_, fun s rest hp => ?_⟩
  · rw [step_of_cons hp, perform_command, performCommand_ok hw, ← exec_eq]
    rfl
  · rw [step_of_cons hp, perform_read (by decide)]
    rfl

/-- Settles O5: the placed word is the head of the accesses, and taking it leaves the state it was placed in. -/
theorem placedCommandRunsNext : Obligations.PlacedCommandRunsNext := by
  intro s w i h
  rw [State.withFetchWord, State.issueCommand, step_setPending, commandWrite, perform_command,
    performCommand_ok (decode_of_decodeTableWord h), ← exec_eq]
  rfl

/-- Settles O11: a read is the value of the register that `regAt` finds at the offset. -/
theorem registerMapReads : Obligations.RegisterMapReads := by
  refine fun s => ⟨rfl, rfl, rfl, rfl, rfl, rfl, rfl, rfl, rfl, fun j => ?_, fun off halign hrange => ?_⟩
  · rw [regAt_hex]
    rfl
  · rw [regAt_eq_reserved halign hrange]
    rfl

/-- Settles O14: the eight words are computed. -/
theorem resetHexValues : Obligations.ResetHexValues := by
  unfold Obligations.ResetHexValues
  decide

end Sys2Proof.Proofs
end

section
/-! The host's accesses (R51, R53, R59): which have a step, and what an event leaves at the host port. -/

namespace Sys2Proof.Machine

theorem admitted_iff (off : Offset) (n : Nat) : admitted off n = true ↔ n = 4 ∧ off.toNat % 4 = 0 := decide_eq_true_iff

/-- Every event but an access that is not admitted has a next state: nothing faults, and only such an access is refused. -/
theorem perform_next_of_safe {e : Event} (h : e.safe = true) (s : State) : ∃ t, perform e s = .next t := by
  cases he : perform e s with
  | next t => exact ⟨t, rfl⟩
  | fault f => exact absurd he (perform_ne_fault e s f)
  | refused r => simp [(perform_refused he).1] at h

theorem perform_read_not_admitted {off : Offset} {n : Nat} (h : ¬ admitted off n = true) (s : State) :
    perform (.read off n) s = .refused (.accessNotAdmitted off n) := if_neg h

theorem perform_write_not_admitted {off : Offset} {n : Nat} (h : ¬ admitted off n = true) (v : Word) (s : State) :
    perform (.write off n v) s = .refused (.accessNotAdmitted off n) := if_neg h

theorem returnedBy_setPending (e : Event) (es : List Event) (s : State) :
    returnedBy e (setPending es s) = returnedBy e s := by
  cases e with
  | read off n => exact congrArg (fun w => [w]) (readReg_setPending _ _ _)
  | write off n v => rfl
  | reset => rfl

/-- An event leaves the accesses still to come alone, and hands the host what it returns (R53, R59). -/
theorem perform_port {e : Event} {s t : State} (h : perform e s = .next t) :
    t.pending = s.pending ∧ t.observed = s.observed ++ returnedBy e s := by
  rcases perform_cases h with ⟨rfl, rfl⟩ | ⟨off, rfl, -, rfl⟩ | ⟨w, i, rfl, -, rfl⟩ | ⟨w, r, rfl, -, rfl⟩ | ⟨v, rfl, rfl⟩ |
    ⟨off, v, rfl, -, -, -, rfl⟩
  · simp [returnedBy, hardReset]
  · exact ⟨rfl, rfl⟩
  · obtain ⟨-, hpending, hobserved⟩ := afterCommand_port i s
    simp [returnedBy, hpending, hobserved]
  · simp [returnedBy]
  · simp [returnedBy]
  · simp [returnedBy]

theorem step_of_data_write {s : State} {v : Word} {rest : List Event} (h : s.pending = .write 0x04 4 v :: rest) :
    step s = .next (setData v (setPending rest s)) := by rw [step_of_cons h, perform_data]

end Sys2Proof.Machine
end

section
/-! The statements of 20_memory.md. -/

namespace Sys2Proof.Proofs

open Sys2Proof.Machine

/-- Settles O6: a step with an access pending performs the head on the state whose queue is the rest, and `perform_port` says
what that leaves at the host port. -/
theorem stepTakesOldestAccess : Obligations.StepTakesOldestAccess := by
  refine ⟨fun s hp => step_of_nil hp, fun s t e rest hp h => ?_⟩
  rw [step_of_cons hp] at h
  obtain ⟨hpending, hobserved⟩ := perform_port h
  rw [returnedBy_setPending] at hobserved
  exact ⟨hpending, hobserved⟩

/-- Settles O7: an admitted access is a safe event, and any other is refused before its register is looked at. -/
theorem onlyAlignedWordAccessesAdmitted : Obligations.OnlyAlignedWordAccessesAdmitted := by
  intro s off n v rest
  rw [← admitted_iff]
  refine ⟨fun h => ⟨fun hp => ?_, fun hp => ?_⟩, fun h => ⟨fun hp => ?_, fun hp => ?_⟩⟩ <;> rw [step_of_cons hp]
  · exact perform_next_of_safe (e := .read off n) h _
  · exact perform_next_of_safe (e := .write off n v) h _
  · exact perform_read_not_admitted h _
  · exact perform_write_not_admitted h v _

/-- Settles O8, from what `perform` does with an aligned read, with a write to DATA, and with a write to neither CMD nor
DATA. -/
theorem accessesHaveNoOtherEffect : Obligations.AccessesHaveNoOtherEffect := by
  refine fun s off v rest halign => ⟨fun hp => ?_, fun hp hdata => ?_, fun hp hcmd hdata => ?_⟩
  · rw [step_of_cons hp, perform_read halign, readReg_setPending]
    rfl
  · subst hdata
    exact step_of_data_write hp
  · rw [step_of_cons hp, perform_write_other halign hcmd hdata]
    rfl

/-- Settles O10: the first step leaves `v` in DATA and the CMD write at the head, and the second performs the command
there. -/
theorem commandUsesDataWrittenBefore : Obligations.CommandUsesDataWrittenBefore := by
  intro s v w i rest hp hw
  have hfirst := step_of_data_write hp
  have hsecond : step (setData v (setPending (.write 0x00 4 w :: rest) s)) =
      .next (afterCommand i { s with DATA := v, pending := rest }) := by
    rw [step_of_cons rfl, perform_command, performCommand_ok hw]
    rfl
  rw [run_succ hfirst, run_succ hsecond, run_zero]
  exact (exec_eq i _).symm

end Sys2Proof.Proofs
end

section
/-! Command words (R70 to R73): the three fields make the word, and an instruction is the one its fields name. -/

namespace Sys2Proof.Machine

theorem wellFormed_absorb_iff (c : Nat) : (Instr.absorb c).wellFormed = true ↔ 1 ≤ c ∧ c ≤ 4 := decide_eq_true_iff

/-- A command word is its three fields. -/
theorem word_ext_fields {v w : Word} (hr : reservedField v = reservedField w) (ho : opField v = opField w)
    (hn : (countField v).toNat = (countField w).toNat) : v = w := by
  have hr := congrArg BitVec.toNat hr
  have ho := congrArg BitVec.toNat ho
  simp only [reservedField, opField, countField, BitVec.extractLsb'_toNat, Nat.shiftRight_eq_div_pow] at hr ho hn
  apply BitVec.eq_of_toNat_eq
  omega

theorem decode_encode {i : Instr} (h : i.wellFormed = true) : decode (encode i) = .ok i := by
  cases i with
  | init => rfl
  | absorb c =>
    obtain ⟨hr, ho, hn⟩ := Laws.EncodedFields.absorb c h
    obtain ⟨hc, -⟩ := (wellFormed_absorb_iff c).mp h
    simp only at ho hn
    simp [decode, hr, ho, hn, Nat.sub_add_cancel hc]
  | absorbCp => rfl
  | final => rfl

/-- What a legal word's fields are (R72, R73). -/
theorem decode_ok_fields {w : Word} {i : Instr} (h : decode w = .ok i) :
    reservedField w = 0 ∧
    ((i = .init ∧ opField w = 0x1 ∧ countField w = 0) ∨
      (i = .absorb ((countField w).toNat + 1) ∧ opField w = 0x2) ∨
      (i = .absorbCp ∧ opField w = 0x3 ∧ countField w = 0) ∨
      (i = .final ∧ opField w = 0x4 ∧ countField w = 0)) := by
  simp only [decode, withoutCount] at h
  split_ifs at h <;> cases h <;> simp_all

theorem wellFormed_of_decode {w : Word} {i : Instr} (h : decode w = .ok i) : i.wellFormed = true := by
  obtain ⟨-, ⟨rfl, -⟩ | ⟨rfl, -⟩ | ⟨rfl, -⟩ | ⟨rfl, -⟩⟩ := decode_ok_fields h
  · rfl
  · have hn := (countField w).isLt
    exact (wellFormed_absorb_iff _).mpr (by omega)
  · rfl
  · rfl

theorem encode_of_decode {w : Word} {i : Instr} (h : decode w = .ok i) : encode i = w := by
  have hwf := wellFormed_of_decode h
  obtain ⟨hr, ⟨rfl, ho, hn⟩ | ⟨rfl, ho⟩ | ⟨rfl, ho, hn⟩ | ⟨rfl, ho, hn⟩⟩ := decode_ok_fields h
  · obtain ⟨er, eo, en⟩ := Laws.EncodedFields.init hwf
    exact word_ext_fields (er.trans hr.symm) (eo.trans ho.symm) (by rw [en, hn]; rfl)
  · obtain ⟨er, eo, en⟩ := Laws.EncodedFields.absorb _ hwf
    exact word_ext_fields (er.trans hr.symm) (eo.trans ho.symm) en
  · obtain ⟨er, eo, en⟩ := Laws.EncodedFields.absorbCp hwf
    exact word_ext_fields (er.trans hr.symm) (eo.trans ho.symm) (by rw [en, hn]; rfl)
  · obtain ⟨er, eo, en⟩ := Laws.EncodedFields.final hwf
    exact word_ext_fields (er.trans hr.symm) (eo.trans ho.symm) (by rw [en, hn]; rfl)

/-- The encodings of the well-formed instructions are the seven words of the opcode map (R72). -/
theorem encode_mem_legalWords {i : Instr} (h : i.wellFormed = true) :
    encode i ∈
      ([0x00000001, 0x00000002, 0x00000012, 0x00000022, 0x00000032, 0x00000003, 0x00000004] : List Word) := by
  cases i with
  | init => decide
  | absorb c =>
    obtain ⟨h1, h4⟩ := (wellFormed_absorb_iff c).mp h
    interval_cases c <;> decide
  | absorbCp => decide
  | final => decide

end Sys2Proof.Machine
end

section
/-! The assembler's operands (R75): when an immediate and an offset are taken, and what a line with an immediate is. -/

namespace Sys2Proof.Machine

/-- A result that was mapped comes from a result. -/
theorem exists_ok_of_map_eq_ok {ε α β : Type} {f : α → β} {x : Except ε α} {b : β} (h : x.map f = .ok b) :
    ∃ a, x = .ok a ∧ f a = b := by
  cases x with
  | error e => cases h
  | ok a => exact ⟨a, rfl, Except.ok.inj h⟩

/-- A result of a sequence comes from a result of its first part. -/
theorem exists_ok_of_bind_eq_ok {ε α β : Type} {f : α → Except ε β} {x : Except ε α} {b : β} (h : x >>= f = .ok b) :
    ∃ a, x = .ok a ∧ f a = .ok b := by
  cases x with
  | error e => cases h
  | ok a => exact ⟨a, rfl, h⟩

theorem immWord_of_ge {imm : Nat} (h : 2 ^ 32 ≤ imm) : immWord imm = .error .immTooWide := if_neg (Nat.not_lt.mpr h)

@[simp] theorem immWord_toNat (w : Word) : immWord w.toNat = .ok w := by
  rw [immWord, if_pos w.isLt, BitVec.ofNat_toNat, BitVec.setWidth_eq]

theorem RegName.checked_of_legal {r : RegName} (h : r.offset % 4 = 0 ∧ r.offset ≤ 0xFC) :
    r.checked = .ok (BitVec.ofNat 8 r.offset) := if_pos h

theorem RegName.checked_of_illegal {r : RegName} (h : ¬ (r.offset % 4 = 0 ∧ r.offset ≤ 0xFC)) :
    r.checked = .error .badOffset := if_neg h

/-- An offset the assembler takes is a multiple of 4 (R75). -/
theorem RegName.aligned_of_checked {r : RegName} {off : Offset} (h : r.checked = .ok off) : off.toNat % 4 = 0 := by
  rw [RegName.checked] at h
  split_ifs at h with hlegal
  cases h
  rw [BitVec.toNat_ofNat]
  omega

@[simp] theorem withOperand_toNat (d w : Word) :
    withOperand (some d.toNat) w = .ok [.write 0x04 4 d, commandWrite w] := by
  rw [withOperand, immWord_toNat]
  rfl

theorem withOperand_of_ge {imm : Nat} (h : 2 ^ 32 ≤ imm) (w : Word) :
    withOperand (some imm) w = .error .immTooWide := by
  rw [withOperand, immWord_of_ge h]
  rfl

theorem absorb_accesses {c : Nat} (h : 1 ≤ c ∧ c ≤ 4) (imm : Option Nat) :
    (AsmLine.absorb c imm).accesses = withOperand imm (encode (.absorb c)) := if_pos h

end Sys2Proof.Machine
end

section
/-! Programs (R75): what the assembler answers for a list of lines. -/

namespace Sys2Proof.Machine

theorem assemble_cons_eq_ok_iff (l : AsmLine) (ls : List AsmLine) (es : List Event) :
    assemble (l :: ls) = .ok es ↔
      ∃ as bs, l.accesses = .ok as ∧ assemble ls = .ok bs ∧ es = as ++ bs := by
  rw [assemble]
  constructor
  · intro h
    obtain ⟨as, hl, h⟩ := exists_ok_of_bind_eq_ok h
    obtain ⟨bs, hls, h⟩ := exists_ok_of_bind_eq_ok h
    exact ⟨as, bs, hl, hls, (Except.ok.inj h).symm⟩
  · rintro ⟨as, bs, hl, hls, rfl⟩
    rw [hl, hls]
    rfl

theorem assemble_cons_of_ok {l : AsmLine} {ls : List AsmLine} {as bs : List Event} (hl : l.accesses = .ok as)
    (hls : assemble ls = .ok bs) : assemble (l :: ls) = .ok (as ++ bs) :=
  (assemble_cons_eq_ok_iff l ls _).mpr ⟨as, bs, hl, hls, rfl⟩

theorem assemble_append_of_ok {ks ls : List AsmLine} {as bs : List Event} (hks : assemble ks = .ok as)
    (hls : assemble ls = .ok bs) : assemble (ks ++ ls) = .ok (as ++ bs) := by
  induction ks generalizing as with
  | nil => cases hks; exact hls
  | cons k ks ih =>
    obtain ⟨xs, ys, hk, hrest, rfl⟩ := (assemble_cons_eq_ok_iff k ks as).mp hks
    rw [List.append_assoc]
    exact assemble_cons_of_ok hk (ih hrest)

/-- Lines that all assemble give their accesses one after another. -/
theorem assemble_map_of_ok {α : Type} {line : α → AsmLine} {accesses : α → List Event} {xs : List α}
    (h : ∀ x ∈ xs, (line x).accesses = .ok (accesses x)) : assemble (xs.map line) = .ok (xs.flatMap accesses) := by
  induction xs with
  | nil => rfl
  | cons x xs ih =>
    obtain ⟨hx, hxs⟩ := List.forall_mem_cons.mp h
    exact assemble_cons_of_ok hx (ih hxs)

end Sys2Proof.Machine
end

section
/-! Which accesses an assembled program can hold (R51, R75): each is a 32-bit access at a multiple of 4. -/

namespace Sys2Proof.Machine

/-- Every access of the list is admitted. -/
def AllSafe (es : List Event) : Prop := ∀ e ∈ es, e.safe = true

theorem allSafe_nil : AllSafe [] := fun _ h => absurd h List.not_mem_nil

theorem AllSafe.append {as bs : List Event} (ha : AllSafe as) (hb : AllSafe bs) : AllSafe (as ++ bs) :=
  List.forall_mem_append.mpr ⟨ha, hb⟩

theorem AllSafe.cons {e : Event} {es : List Event} (he : e.safe = true) (hes : AllSafe es) : AllSafe (e :: es) :=
  List.forall_mem_cons.mpr ⟨he, hes⟩

theorem commandWrite_safe (w : Word) : (commandWrite w).safe = true := rfl

theorem dataWrite_safe (w : Word) : (Event.write 0x04 4 w).safe = true := rfl

theorem write_safe_of_checked {r : RegName} {off : Offset} (h : r.checked = .ok off) (w : Word) :
    (Event.write off 4 w).safe = true := (admitted_iff off 4).mpr ⟨rfl, r.aligned_of_checked h⟩

theorem read_safe_of_checked {r : RegName} {off : Offset} (h : r.checked = .ok off) :
    (Event.read off 4).safe = true := (admitted_iff off 4).mpr ⟨rfl, r.aligned_of_checked h⟩

theorem feed_safe (f : Feed) : f.event.safe = true := by cases f <;> rfl

theorem feedEvents_allSafe (fs : List Feed) : AllSafe (feedEvents fs) := by
  intro e he
  obtain ⟨f, -, rfl⟩ := List.mem_map.mp he
  exact feed_safe f

theorem readDigest_allSafe : AllSafe readDigest := List.all_eq_true.mp (by decide)

theorem readHex_allSafe : AllSafe readHex := List.all_eq_true.mp (by decide)

theorem withOperand_allSafe {imm : Option Nat} {w : Word} {es : List Event} (h : withOperand imm w = .ok es) :
    AllSafe es := by
  have hcmd : AllSafe [commandWrite w] := allSafe_nil.cons (commandWrite_safe w)
  cases imm with
  | none => cases h; exact hcmd
  | some v =>
    obtain ⟨d, -, rfl⟩ := exists_ok_of_map_eq_ok h
    exact hcmd.cons (dataWrite_safe d)

end Sys2Proof.Machine
end

section
/-! The feeds ABSORB_BYTES and ABSORB_TEXT stand for (R76), and the message bytes they append. -/

namespace Sys2Proof.Machine

@[simp] theorem feedEvents_nil : feedEvents [] = [] := rfl
@[simp] theorem feedEvents_cons (f : Feed) (fs : List Feed) : feedEvents (f :: fs) = f.event :: feedEvents fs := rfl
@[simp] theorem feedEvents_length (fs : List Feed) : (feedEvents fs).length = fs.length := List.length_map ..

theorem feedEvents_append (fs gs : List Feed) : feedEvents (fs ++ gs) = feedEvents fs ++ feedEvents gs :=
  List.map_append ..

theorem feedEvents_flatMap {α : Type} (feeds : α → List Feed) (xs : List α) :
    feedEvents (xs.flatMap feeds) = xs.flatMap (fun x => feedEvents (feeds x)) := List.map_flatMap ..

/-- The word of bytes `4k` to `4k + 3` of a byte sequence; bytes it does not have are 0. -/
def byteGroup (bs : List Byte) (k : Nat) : Word :=
  le32 (bs.getD (4 * k) 0) (bs.getD (4 * k + 1) 0) (bs.getD (4 * k + 2) 0) (bs.getD (4 * k + 3) 0)

/-- The feeds of a byte sequence: its full groups of four in order, then what remains (R76). -/
def groupFeeds (bs : List Byte) : List Feed :=
  (List.range (bs.length / 4)).flatMap (fun k => [.data (byteGroup bs k), .absorb 4]) ++
    (if bs.length % 4 = 0 then [] else [.data (byteGroup bs (bs.length / 4)), .absorb (bs.length % 4)])

/-- The feeds of a text: one DATA write and ABSORB_CP for each code point (R76). -/
def codePointFeeds (cps : List Word) : List Feed := cps.flatMap (fun cp => [.data cp, .codePoint])

/-- The first group goes first, and the groups after it are those of the bytes after it. -/
theorem groupFeeds_four (b0 b1 b2 b3 : Byte) (rest : List Byte) :
    groupFeeds (b0 :: b1 :: b2 :: b3 :: rest) = .data (le32 b0 b1 b2 b3) :: .absorb 4 :: groupFeeds rest := by
  have hq : (b0 :: b1 :: b2 :: b3 :: rest).length / 4 = rest.length / 4 + 1 :=
    Nat.add_div_right rest.length (show 0 < 4 by decide)
  have hr : (b0 :: b1 :: b2 :: b3 :: rest).length % 4 = rest.length % 4 := Nat.add_mod_right rest.length 4
  have hgroup (k : Nat) : byteGroup (b0 :: b1 :: b2 :: b3 :: rest) (k + 1) = byteGroup rest k := rfl
  rw [groupFeeds, hq, hr, List.range_succ_eq_map, List.flatMap_cons, List.flatMap_map]
  simp only [hgroup, Nat.succ_eq_add_one]
  rfl

/-- Fewer than four bytes are one group (R76). -/
theorem groupFeeds_of_lt {bs : List Byte} (h0 : 0 < bs.length) (h4 : bs.length < 4) :
    groupFeeds bs = [.data (byteGroup bs 0), .absorb bs.length] := by
  rw [groupFeeds, Nat.div_eq_of_lt h4, Nat.mod_eq_of_lt h4, if_neg h0.ne']
  rfl

theorem absorbBytesAccesses_eq (bs : List Byte) : absorbBytesAccesses bs = feedEvents (groupFeeds bs) := by
  induction bs using absorbBytesAccesses.induct with
  | case1 b0 b1 b2 b3 rest ih =>
    rw [absorbBytesAccesses, ih, groupFeeds_four]
    rfl
  | case2 b0 b1 b2 => rw [groupFeeds_of_lt (by simp) (by simp)]; rfl
  | case3 b0 b1 => rw [groupFeeds_of_lt (by simp) (by simp)]; rfl
  | case4 b0 => rw [groupFeeds_of_lt (by simp) (by simp)]; rfl
  | case5 => rfl

theorem absorbTextAccesses_eq (cps : List Word) : absorbTextAccesses cps = feedEvents (codePointFeeds cps) := by
  rw [codePointFeeds, feedEvents_flatMap]
  rfl

theorem absorbBytes_four (b0 b1 b2 b3 : Byte) : absorbBytes 4 (le32 b0 b1 b2 b3) = [b0, b1, b2, b3] := by
  obtain ⟨h0, h1, h2, h3⟩ := byteOf_le32 b0 b1 b2 b3
  simp [absorbBytes, List.range_succ, h0, h1, h2, h3]

/-- ABSORB.c takes the low `c` bytes of DATA, so it takes a beginning of the four (R71). -/
theorem absorbBytes_le32 {c : Nat} (hc : c ≤ 4) (b0 b1 b2 b3 : Byte) :
    absorbBytes c (le32 b0 b1 b2 b3) = [b0, b1, b2, b3].take c := by
  rw [← absorbBytes_four, absorbBytes, absorbBytes, ← List.map_take, List.take_range, Nat.min_eq_left hc]

/-- A DATA write and ABSORB.c append the bytes of that DATA word (R71, R144). -/
theorem feedBytes_data_absorb {c : Nat} (hc : 1 ≤ c ∧ c ≤ 4) (w : Word) (fs : List Feed) (d : Word) :
    feedBytes (.data w :: .absorb c :: fs) d = (feedBytes fs w).map (absorbBytes c w ++ ·) :=
  if_pos ((wellFormed_absorb_iff c).mpr hc)

/-- A DATA write and ABSORB_CP append the encoding of a valid code point (R174). -/
theorem feedBytes_data_codePoint {cp : Word} (h : validCodePoint cp = true) (fs : List Feed) (d : Word) :
    feedBytes (.data cp :: .codePoint :: fs) d = (feedBytes fs cp).map (utf16leBytes cp ++ ·) := by
  simp [feedBytes, encodeCodePoint, h]

/-- One group alone appends its low bytes. -/
theorem feedBytes_lastGroup {c : Nat} (hc : 1 ≤ c ∧ c ≤ 4) (b0 b1 b2 b3 : Byte) (d : Word) :
    feedBytes [.data (le32 b0 b1 b2 b3), .absorb c] d = some ([b0, b1, b2, b3].take c) := by
  rw [feedBytes_data_absorb hc, absorbBytes_le32 hc.2]
  simp [feedBytes]

theorem feedBytes_groupFeeds (bs : List Byte) (d : Word) : feedBytes (groupFeeds bs) d = some bs := by
  induction bs using absorbBytesAccesses.induct generalizing d with
  | case1 b0 b1 b2 b3 rest ih =>
    rw [groupFeeds_four, feedBytes_data_absorb (by decide), ih, absorbBytes_four]
    rfl
  | case2 b0 b1 b2 =>
    rw [groupFeeds_of_lt (by simp) (by simp)]
    exact feedBytes_lastGroup (c := 3) (by decide) b0 b1 b2 0 d
  | case3 b0 b1 =>
    rw [groupFeeds_of_lt (by simp) (by simp)]
    exact feedBytes_lastGroup (c := 2) (by decide) b0 b1 0 0 d
  | case4 b0 =>
    rw [groupFeeds_of_lt (by simp) (by simp)]
    exact feedBytes_lastGroup (c := 1) (by decide) b0 0 0 0 d
  | case5 => rfl

theorem feedBytes_codePointFeeds {cps : List Word} (h : ∀ cp ∈ cps, validCodePoint cp = true) (d : Word) :
    feedBytes (codePointFeeds cps) d = some (utf16leMessage cps) := by
  induction cps generalizing d with
  | nil => rfl
  | cons cp cps ih =>
    obtain ⟨hcp, hcps⟩ := List.forall_mem_cons.mp h
    have hhead := feedBytes_data_codePoint hcp (codePointFeeds cps) d
    rw [ih hcps] at hhead
    exact hhead

end Sys2Proof.Machine
end

section
/-! Every line's accesses are admitted, and the lines the pseudo-instructions stand for (R75, R76). -/

namespace Sys2Proof.Machine

theorem accesses_allSafe {l : AsmLine} {es : List Event} (h : l.accesses = .ok es) : AllSafe es := by
  cases l with
  | init => cases h; exact allSafe_nil.cons (commandWrite_safe _)
  | absorb c imm =>
    rw [AsmLine.accesses] at h
    split_ifs at h
    exact withOperand_allSafe h
  | absorbCp imm => exact withOperand_allSafe h
  | final => cases h; exact allSafe_nil.cons (commandWrite_safe _)
  | cmd imm =>
    obtain ⟨w, -, rfl⟩ := exists_ok_of_map_eq_ok h
    exact allSafe_nil.cons (commandWrite_safe w)
  | wr r imm =>
    obtain ⟨off, hr, h⟩ := exists_ok_of_bind_eq_ok h
    obtain ⟨w, -, h⟩ := exists_ok_of_bind_eq_ok h
    cases h
    exact allSafe_nil.cons (write_safe_of_checked hr w)
  | rd r =>
    obtain ⟨off, hr, rfl⟩ := exists_ok_of_map_eq_ok h
    exact allSafe_nil.cons (read_safe_of_checked hr)
  | absorbBytes bs => cases h; rw [absorbBytesAccesses_eq]; exact feedEvents_allSafe _
  | absorbText cps => cases h; rw [absorbTextAccesses_eq]; exact feedEvents_allSafe _
  | md4 bs =>
    cases h
    rw [absorbBytesAccesses_eq]
    exact ((feedEvents_allSafe _).cons (commandWrite_safe _)).append (readDigest_allSafe.cons (commandWrite_safe _))
  | ntlm cps =>
    cases h
    rw [absorbTextAccesses_eq]
    exact ((feedEvents_allSafe _).cons (commandWrite_safe _)).append
      ((readHex_allSafe.cons rfl).cons (commandWrite_safe _))
  | rdDigest => cases h; exact readDigest_allSafe
  | rdHex => cases h; exact readHex_allSafe

theorem absorb_accesses_toNat {c : Nat} (h : 1 ≤ c ∧ c ≤ 4) (w : Word) :
    (AsmLine.absorb c (some w.toNat)).accesses = .ok (feedEvents [.data w, .absorb c]) := by
  rw [absorb_accesses h, withOperand_toNat]
  rfl

theorem absorbCp_accesses_toNat (cp : Word) :
    (AsmLine.absorbCp (some cp.toNat)).accesses = .ok (codePointAccesses cp) := withOperand_toNat cp _

/-- The `ABSORB` lines of a byte sequence assemble to its feeds. -/
theorem assemble_absorb_groups (bs : List Byte) :
    assemble ((List.range (bs.length / 4)).map (fun k => .absorb 4 (some (byteGroup bs k).toNat)) ++
      (if bs.length % 4 = 0 then []
        else [.absorb (bs.length % 4) (some (byteGroup bs (bs.length / 4)).toNat)])) =
      .ok (feedEvents (groupFeeds bs)) := by
  rw [groupFeeds, feedEvents_append, feedEvents_flatMap]
  refine assemble_append_of_ok (assemble_map_of_ok fun k _ => absorb_accesses_toNat (by decide) _) ?_
  split_ifs with hr
  · rfl
  · exact assemble_cons_of_ok (absorb_accesses_toNat (by omega) _) rfl

end Sys2Proof.Machine
end

section
/-! Runs of feeds (R144, R149, R174): each is one step, and together they append their bytes. -/

namespace Sys2Proof.Machine

theorem step_of_command {i : Instr} (hwf : i.wellFormed = true) {s : State} {rest : List Event}
    (hp : s.pending = commandWrite (encode i) :: rest) : step s = .next (afterCommand i (setPending rest s)) := by
  rw [step_of_cons hp, commandWrite, perform_command, performCommand_ok (decode_encode hwf)]

theorem afterCommand_absorb {s : State} (h : s.DONE = false) (c : Nat) :
    afterCommand (.absorb c) s = appendMsgs (absorbBytes c s.DATA) s := whileAccepting_accepting _ h

theorem afterCommand_absorbCp {s : State} (h : s.DONE = false) {bs : List Byte}
    (hbs : encodeCodePoint s.DATA = some bs) : afterCommand .absorbCp s = appendMsgs bs s := by
  rw [afterCommand, whileAccepting_accepting _ h, absorbCodePoint, hbs]

theorem afterCommand_final {s : State} (h : s.DONE = false) : afterCommand .final s = setDone (padMessage s) := by
  simp only [afterCommand, whileAccepting_accepting _ h]

/-- Accepted feeds append their bytes and leave in DATA what was last written; nothing else of the block changes
(R144, R149, R174, R235). -/
theorem run_feeds {fs : List Feed} {s : State} {bs : List Byte} {rest : List Event}
    (hbytes : feedBytes fs s.DATA = some bs) (hdone : s.DONE = false) (hp : s.pending = feedEvents fs ++ rest) :
    Sys2Proof.core.run fs.length s =
      .next (appendMsgs bs (setData (feedData fs s.DATA) (setPending rest s))) := by
  induction fs generalizing s bs with
  | nil =>
    cases hbytes
    subst hp
    rfl
  | cons f fs ih =>
    rw [feedEvents_cons, List.cons_append] at hp
    /- A step that appends `as` and leaves DATA alone, and then the feeds after it. -/
    have happend (as bs' : List Byte) (htail : feedBytes fs s.DATA = some bs')
        (hstep : step s = .next (appendMsgs as (setPending (feedEvents fs ++ rest) s))) :
        Sys2Proof.core.run (fs.length + 1) s =
          .next (appendMsgs (as ++ bs') (setData (feedData fs s.DATA) (setPending rest s))) := by
      have h := appendMsgs_sameAside as (setPending (feedEvents fs ++ rest) s)
      rw [run_succ hstep, ih (by rw [h.data]; exact htail) (h.done.trans hdone) h.pending, h.data,
        ← appendMsgs_setData_setPending, ← appendMsgs_append]
      rfl
    cases f with
    | data w =>
      have htail : feedBytes fs (setData w (setPending (feedEvents fs ++ rest) s)).DATA = some bs := hbytes
      rw [List.length_cons, run_succ (step_of_data_write hp), ih htail hdone rfl]
      rfl
    | absorb c =>
      rw [feedBytes] at hbytes
      split_ifs at hbytes with hwf
      obtain ⟨bs', htail, rfl⟩ := Option.map_eq_some_iff.mp hbytes
      have hstep := afterCommand_absorb (s := setPending (feedEvents fs ++ rest) s) hdone c
      exact happend _ bs' htail ((step_of_command hwf hp).trans (congrArg _ hstep))
    | codePoint =>
      rw [feedBytes] at hbytes
      obtain ⟨as, hcp, hrest⟩ := Option.bind_eq_some_iff.mp hbytes
      obtain ⟨bs', htail, rfl⟩ := Option.map_eq_some_iff.mp hrest
      have hstep := afterCommand_absorbCp (s := setPending (feedEvents fs ++ rest) s) hdone hcp
      exact happend as bs' htail ((step_of_command rfl hp).trans (congrArg _ hstep))

end Sys2Proof.Machine
end

section
/-! A whole message (R143, R145, R151): INIT, feeds, FINAL leave its digest. -/

namespace Sys2Proof.Machine

/-- The byte path looks at S, FILL and BUF only. -/
theorem appendRaws_S_congr {s t : State} (hS : s.S = t.S) (hfill : s.FILL = t.FILL) (hbuf : s.BUF = t.BUF)
    (bs : List Byte) : (appendRaws bs s).S = (appendRaws bs t).S := by
  rw [(appendRaws_chain bs s).1, (appendRaws_chain bs t).1, currentBytes, currentBytes, hS, hfill, hbuf]

theorem padMessage_setPending_S (es : List Event) (s : State) : (padMessage (setPending es s)).S = (padMessage s).S := by
  rw [padMessage_eq, padMessage_eq, setPending_FILL, setPending_LEN]
  exact appendRaws_S_congr (setPending_S es s) (setPending_FILL es s) (setPending_BUF es s) _

/-- From the state INIT leaves, a message and its padding compress the blocks of the padded message (R151). -/
theorem padMessage_appendMsgs_S {s : State} (hS : s.S = Quad.initial) (hfill : s.FILL = 0) (hlen : s.LEN = 0)
    (m : List Byte) : (padMessage (appendMsgs m s)).S = md4 m := by
  have hfill' : (appendMsgs m s).FILL.val = m.length % 64 := by
    rw [appendMsgs_FILL, hfill, Fin.val_zero, Nat.zero_add]
  have hlen' : (appendMsgs m s).LEN = BitVec.ofNat 64 (8 * m.length) := by
    rw [appendMsgs_LEN, hlen]
    exact BitVec.zero_add _
  have hsame : (appendMsgs m s).FILL = (appendRaws m s).FILL :=
    Fin.ext ((appendMsgs_FILL m s).trans (appendRaws_FILL m s).symm)
  rw [padMessage_eq, appendRaws_S_congr (appendMsgs_S m s) hsame (appendMsgs_BUF m s), ← appendRaws_append,
    (appendRaws_chain _ s).1, currentBytes_of_FILL_zero hfill, hS, hfill, hfill', hlen', md4, paddedMessage]
  simp

/-- The state a whole message leaves: its digest in S, an empty block, its length, DONE and no error flag (R145, R151). -/
structure HoldsDigest (m : List Byte) (s : State) : Prop where
  acc : s.S = md4 m
  fill : s.FILL = 0
  len : s.LEN = BitVec.ofNat 64 (8 * m.length)
  done : s.DONE = true
  noError : s.noError

/-- FINAL after a message's bytes, from the state INIT leaves (R145). -/
theorem step_final_of_message {s : State} {rest : List Event} (hS : s.S = Quad.initial) (hfill : s.FILL = 0)
    (hlen : s.LEN = 0) (hdone : s.DONE = false) (herr : s.noError)
    (hp : s.pending = commandWrite (encode .final) :: rest) (m : List Byte) :
    ∃ t, step (appendMsgs m s) = .next t ∧
      HoldsDigest m t ∧ t.pending = rest ∧ t.observed = s.observed := by
  have hfed := appendMsgs_sameAside m s
  have hpad := padMessage_sameAside (setPending rest (appendMsgs m s))
  have hstep := step_of_command (i := .final) rfl (hfed.pending.trans hp)
  rw [afterCommand_final (s := setPending rest (appendMsgs m s)) (hfed.done.trans hdone)] at hstep
  have hSpad : (padMessage (setPending rest (appendMsgs m s))).S = md4 m := by
    rw [padMessage_setPending_S, padMessage_appendMsgs_S hS hfill hlen]
  have hlenpad : (padMessage (setPending rest (appendMsgs m s))).LEN = BitVec.ofNat 64 (8 * m.length) := by
    rw [padMessage_LEN, setPending_LEN, appendMsgs_LEN, hlen]
    exact BitVec.zero_add _
  have hfillpad := padMessage_FILL (setPending rest (appendMsgs m s))
  obtain ⟨hcmd, henc, hseq⟩ := herr
  generalize padMessage (setPending rest (appendMsgs m s)) = padded at *
  have herrpad : (setDone padded).noError :=
    ⟨(hpad.errCmd.trans hfed.errCmd).trans hcmd, (hpad.errEnc.trans hfed.errEnc).trans henc,
      (hpad.errSeq.trans hfed.errSeq).trans hseq⟩
  exact ⟨setDone padded, hstep, ⟨hSpad, hfillpad, hlenpad, rfl, herrpad⟩, hpad.pending,
    hpad.observed.trans hfed.observed⟩

/-- INIT, accepted feeds and FINAL leave the digest of the bytes fed, from every state (R151). -/
theorem run_message {s : State} {fs : List Feed} {m : List Byte} {rest : List Event}
    (hbytes : feedBytes fs s.DATA = some m)
    (hp : s.pending = commandWrite (encode .init) :: feedEvents fs ++ commandWrite (encode .final) :: rest) :
    ∃ t, Sys2Proof.core.run (fs.length + 2) s = .next t ∧
      HoldsDigest m t ∧ t.pending = rest ∧ t.observed = s.observed := by
  rw [List.cons_append] at hp
  have hinit : step s = .next (beginMessage (setPending (feedEvents fs ++ commandWrite (encode .final) :: rest) s)) :=
    step_of_command rfl hp
  have hfeeds := run_feeds
    (s := beginMessage (setPending (feedEvents fs ++ commandWrite (encode .final) :: rest) s)) hbytes rfl rfl
  obtain ⟨t, hfinal, ht⟩ := step_final_of_message
    (s := setData _ (setPending _ (beginMessage (setPending _ s)))) rfl rfl rfl rfl ⟨rfl, rfl, rfl⟩ rfl m
  exact ⟨t, (run_succ hinit _).trans ((run_add hfeeds 1).trans (run_succ hfinal 0)), ht⟩

end Sys2Proof.Machine
end

section
/-! Runs of reads (R53, R75). -/

namespace Sys2Proof.Machine

/-- A run of aligned reads hands the host the registers' values in order and leaves them as they were. -/
theorem run_reads {offs : List Offset} (halign : ∀ off ∈ offs, off.toNat % 4 = 0) {s : State} {rest : List Event}
    (hp : s.pending = offs.map (fun off => .read off 4) ++ rest) :
    ∃ t, Sys2Proof.core.run offs.length s = .next t ∧ t.pending = rest ∧
      t.observed = s.observed ++ offs.map (fun off => readReg (regAt off) s) := by
  induction offs generalizing s with
  | nil => exact ⟨s, rfl, hp, (List.append_nil _).symm⟩
  | cons off offs ih =>
    obtain ⟨hoff, hoffs⟩ := List.forall_mem_cons.mp halign
    have hstep := (step_of_cons hp).trans (perform_read hoff _)
    obtain ⟨t, hrun, hpending, hobserved⟩ := ih hoffs (s := recordRead _ (setPending _ s)) rfl
    refine ⟨t, (run_succ hstep _).trans hrun, hpending, ?_⟩
    rw [hobserved]
    simp

end Sys2Proof.Machine
end

section
/-! What the programs MD4 and NTLM read (R36 to R39, R76): a message's accesses and then reads of its result. -/

namespace Sys2Proof.Machine

/-- After FINAL with no error STATUS is 1 (R207). -/
theorem HoldsDigest.statusWord_eq {m : List Byte} {s : State} (h : HoldsDigest m s) : statusWord s = 0x00000001 := by
  obtain ⟨hcmd, henc, hseq⟩ := h.noError
  rw [statusWord, h.fill, h.done, hcmd, henc, hseq]
  rfl

/-- The offsets of the registers the MD4 line reads: the four DIGEST registers (R76). -/
def digestOffsets : List Offset := [0x20, 0x24, 0x28, 0x2C]

/-- The offsets of the registers the NTLM line reads: STATUS and the eight HEX registers (R76). -/
def ntlmOffsets : List Offset := [0x08, 0x30, 0x34, 0x38, 0x3C, 0x40, 0x44, 0x48, 0x4C]

theorem digestOffsets_read (s : State) :
    digestOffsets.map (fun off => readReg (regAt off) s) = [s.S.a, s.S.b, s.S.c, s.S.d] := rfl

theorem ntlmOffsets_read (s : State) :
    ntlmOffsets.map (fun off => readReg (regAt off) s) = statusWord s :: (List.range 8).map (hexWord s.S) := rfl

/-- INIT, accepted feeds, FINAL and reads at aligned offsets run to the end, and the reads see the state `t` that the
message leaves. -/
theorem run_message_reads {s : State} {fs : List Feed} {m : List Byte} {offs : List Offset}
    (hbytes : feedBytes fs s.DATA = some m) (halign : ∀ off ∈ offs, off.toNat % 4 = 0)
    (hp : s.pending = commandWrite (encode .init) :: feedEvents fs ++
      commandWrite (encode .final) :: offs.map (fun off => .read off 4)) :
    ∃ t u, Sys2Proof.core.run s.pending.length s = .next u ∧ u.pending = [] ∧
      u.observed = s.observed ++ offs.map (fun off => readReg (regAt off) t) ∧
      HoldsDigest m t := by
  obtain ⟨t, hmessage, ht, hpending, hobserved⟩ := run_message hbytes hp
  obtain ⟨u, hreads, hend, hvalues⟩ := run_reads halign (hpending.trans (List.append_nil _).symm)
  refine ⟨t, u, ?_, hend, by rw [hvalues, hobserved], ht⟩
  have hlength : s.pending.length = fs.length + 2 + offs.length := by
    rw [hp]
    simp
    omega
  rw [hlength]
  exact (run_add hmessage _).trans hreads

end Sys2Proof.Machine
end

section
/-! The statements of 30_encoding.md. -/

namespace Sys2Proof.Proofs

open Sys2Proof.Machine

/-- Settles O1: a word is its three fields, and DECODE names the instruction whose encoding has them. -/
theorem decodeMatchesEncode : Obligations.DecodeMatchesEncode := by
  refine fun w i => ⟨fun h => ⟨wellFormed_of_decode h, encode_of_decode h⟩, fun ⟨hwf, hw⟩ => ?_⟩
  rw [← hw, decode_encode hwf]

/-- Settles O2: the legal words are the encodings of the well-formed instructions, and each of the seven decodes. -/
theorem sevenWordsAreLegal : Obligations.SevenWordsAreLegal := by
  refine fun w => ⟨fun ⟨i, h⟩ => ?_, fun h => ?_⟩
  · rw [← encode_of_decode h]
    exact encode_mem_legalWords (wellFormed_of_decode h)
  · simp only [List.mem_cons, List.not_mem_nil, or_false] at h
    rcases h with rfl | rfl | rfl | rfl | rfl | rfl | rfl <;> exact ⟨_, rfl⟩

/-- Settles O3: the ten words are decoded. -/
theorem writtenOutWordsDecode : Obligations.WrittenOutWordsDecode := by
  unfold Obligations.WrittenOutWordsDecode
  decide

/-- Settles O50: each line's operands are checked before it stands for any access, the offset of WR before its immediate. -/
theorem assemblerRefusesBadOperands : Obligations.AssemblerRefusesBadOperands := by
  refine ⟨fun c imm hc => if_neg hc, fun c imm h1 h4 himm => ?_, fun imm himm => ⟨withOperand_of_ge himm _, ?_⟩,
    fun r imm halign hle himm => ?_, fun off imm hoff => ?_⟩
  · rw [absorb_accesses ⟨h1, h4⟩, withOperand_of_ge himm]
  · rw [AsmLine.accesses, immWord_of_ge himm]
    rfl
  · rw [AsmLine.accesses, RegName.checked_of_legal ⟨halign, hle⟩, immWord_of_ge himm]
    rfl
  · have hbad : (RegName.at off).checked = .error .badOffset :=
      RegName.checked_of_illegal (by rw [RegName.offset]; omega)
    rw [AsmLine.accesses, AsmLine.accesses, hbad]
    exact ⟨rfl, rfl⟩

/-- Settles O51, by induction on the program: the accesses of its first line are admitted (`accesses_allSafe`). -/
theorem assembledAccessesAreAdmitted : Obligations.AssembledAccessesAreAdmitted := by
  intro prog
  induction prog with
  | nil =>
    intro es h
    cases h
    exact allSafe_nil
  | cons l ls ih =>
    intro es h
    obtain ⟨as, bs, hl, hls, rfl⟩ := (assemble_cons_eq_ok_iff l ls es).mp h
    exact (accesses_allSafe hl).append (ih bs hls)

/-- Settles O52: both lines stand for feeds, whose bytes are those of the line's operands. -/
theorem pseudoLinesAppendTheirBytes : Obligations.PseudoLinesAppendTheirBytes :=
  ⟨fun bs => ⟨congrArg Except.ok (absorbBytesAccesses_eq bs), feedBytes_groupFeeds bs⟩,
    fun cps => ⟨congrArg Except.ok (absorbTextAccesses_eq cps), fun h => feedBytes_codePointFeeds h⟩⟩

/-- Settles O54: the feeding lines assemble to the feeds of the pseudo-instruction, and each other line to its one
access. -/
theorem pseudoLinesExpand : Obligations.PseudoLinesExpand := by
  refine ⟨fun bs => ?_, fun cps => ?_, fun bs => rfl, fun cps => rfl, rfl, rfl⟩
  · rw [AsmLine.accesses, absorbBytesAccesses_eq]
    exact (assemble_absorb_groups bs).symm
  · exact (assemble_map_of_ok fun cp _ => absorbCp_accesses_toNat cp).symm

/-- Settles O53: both programs are a message and then reads (`run_message_reads`), and the registers read show S and
STATUS. -/
theorem assembledProgramsReadTheDigest : Obligations.AssembledProgramsReadTheDigest := by
  refine ⟨fun bs es s hes hp => ?_, fun cps es s hvalid hes hp => ?_⟩ <;> subst hp
  · rw [AsmLine.accesses, absorbBytesAccesses_eq] at hes
    obtain ⟨t, u, hrun, hend, hobserved, ht⟩ := run_message_reads (offs := digestOffsets)
      (feedBytes_groupFeeds bs s.DATA) (by decide) (Except.ok.inj hes).symm
    rw [digestOffsets_read, ht.acc] at hobserved
    exact ⟨u, hrun, hend, hobserved⟩
  · rw [AsmLine.accesses, absorbTextAccesses_eq] at hes
    obtain ⟨t, u, hrun, hend, hobserved, ht⟩ := run_message_reads (offs := ntlmOffsets)
      (feedBytes_codePointFeeds hvalid s.DATA) (by decide) (Except.ok.inj hes).symm
    rw [ntlmOffsets_read, ht.acc, ht.statusWord_eq] at hobserved
    exact ⟨u, hrun, hend, hobserved⟩

end Sys2Proof.Proofs
end

section
/-! The round functions (R102 to R104): their values bit by bit, and the arguments they are symmetric in. -/

namespace Sys2Proof.Machine

theorem getLsbD_fnF (x y z : Word) {i : Nat} (hi : i < 32) :
    (fnF x y z).getLsbD i = if x.getLsbD i then y.getLsbD i else z.getLsbD i := by
  rw [fnF, BitVec.getLsbD_or, BitVec.getLsbD_and, BitVec.getLsbD_and, BitVec.getLsbD_not]
  cases x.getLsbD i <;> simp [hi]

theorem getLsbD_fnG (x y z : Word) (i : Nat) :
    (fnG x y z).getLsbD i = decide (2 ≤ (x.getLsbD i).toNat + (y.getLsbD i).toNat + (z.getLsbD i).toNat) := by
  simp only [fnG, BitVec.getLsbD_or, BitVec.getLsbD_and]
  cases x.getLsbD i <;> cases y.getLsbD i <;> cases z.getLsbD i <;> rfl

theorem getLsbD_fnH (x y z : Word) (i : Nat) :
    (fnH x y z).getLsbD i =
      decide (((x.getLsbD i).toNat + (y.getLsbD i).toNat + (z.getLsbD i).toNat) % 2 = 1) := by
  simp only [fnH, BitVec.getLsbD_xor]
  cases x.getLsbD i <;> cases y.getLsbD i <;> cases z.getLsbD i <;> rfl

theorem fnG_swap_left (x y z : Word) : fnG x y z = fnG y x z := by
  rw [fnG, fnG, BitVec.and_comm y x, BitVec.or_assoc, BitVec.or_comm (x &&& z), BitVec.or_assoc]

theorem fnG_swap_right (x y z : Word) : fnG x y z = fnG x z y := by
  rw [fnG, fnG, BitVec.and_comm z y, BitVec.or_comm (x &&& z)]

theorem fnH_swap_left (x y z : Word) : fnH x y z = fnH y x z := by rw [fnH, fnH, BitVec.xor_comm x y]

theorem fnH_swap_right (x y z : Word) : fnH x y z = fnH x z y := by
  rw [fnH, fnH, BitVec.xor_assoc, BitVec.xor_comm y z, BitVec.xor_assoc]

end Sys2Proof.Machine
end

section
/-! A step (R105 to R110): what it leaves in each working register, and the rows of the step table round by round. -/

namespace Sys2Proof.Machine

theorem Quad.get_set (q : Quad) (t u : Fin 4) (v : Word) : (q.set t v).get u = if u = t then v else q.get u := by
  fin_cases t <;> fin_cases u <;> rfl

theorem mixStep_get_of_ne {r : StepRow} {t : Fin 4} (h : t ≠ r.t) (x : Word) (w : Quad) :
    (mixStep r x w).get t = w.get t := by
  rw [mixStep, Quad.get_set, if_neg h]

/-- The target becomes the rotated sum, the function's arguments in cyclic order after it (R105, R106). -/
theorem mixStep_get_target {r : StepRow} {t : Fin 4} (h : r.t = t) (x : Word) (w : Quad) :
    (mixStep r x w).get t =
      rotl32 (w.get t + r.fn.apply (w.get (t + 1)) (w.get (t + 2)) (w.get (t + 3)) + x + r.K) r.s := by
  rw [mixStep, Quad.get_set, if_pos h.symm, h]

theorem stepRow_eq_round1 {i : Nat} (h : i < 16) : stepRow i = round1 i := if_pos h

theorem stepRow_eq_round2 {i : Nat} (h : i < 16) : stepRow (16 + i) = round2 i := by
  rw [stepRow, if_neg (by omega), if_pos (by omega), Nat.add_sub_cancel_left]

theorem stepRow_eq_round3 (i : Nat) : stepRow (32 + i) = round3 i := by
  rw [stepRow, if_neg (by omega), if_neg (by omega), Nat.add_sub_cancel_left]

/-- Round 1 takes the words in their order (R108). -/
theorem stepRow_word_of_lt {i : Nat} (h : i < 16) : (stepRow i).k.val = i := by
  rw [stepRow_eq_round1 h]
  exact Nat.mod_eq_of_lt h

end Sys2Proof.Machine
end

section
/-! COMPRESS (R100, R101, R111 to R113): the words of the block, the schedule as the 48 rows in order, and the whole state it
leaves. -/

namespace Sys2Proof.Machine

/-- The schedule is the 48 rows in order, each with the word its row names (R111). -/
theorem scheduledSteps_eq_map_range {X : List Word} (h : X.length = 16) :
    scheduledSteps X = (List.range 48).map (fun n => (stepRow n, X.getD (stepRow n).k.val 0)) := by
  have hround1 : X.zipIdx.map (fun p => (stepRow p.2, p.1)) =
      (List.range 16).map (fun n => (stepRow n, X.getD (stepRow n).k.val 0)) := by
    refine List.ext_getElem (by simp [h]) fun i hi _ => ?_
    have hlt : i < X.length := by simpa using hi
    simp [stepRow_word_of_lt (h ▸ hlt), hlt]
  rw [scheduledSteps, hround1, List.range_add (n := 16) (m := 32), List.map_append, List.map_map]
  rfl

/-- `X[j]` is the little-endian word of bytes 4j to 4j + 3 of the block (R100). -/
theorem blockWords_getD (blk : Vector Byte 64) (j : Fin 16) :
    (blockWords blk).getD j.val 0 =
      blk[4 * j.val + 3] ++ blk[4 * j.val + 2] ++ blk[4 * j.val + 1] ++ blk[4 * j.val] := by
  have hlen : blk.toList.length = 4 * 16 := Vector.length_toList
  have hbyte (i : Nat) (hi : i < 64) : blk.toList.getD i 0 = blk[i] := by simp [hi]
  rw [blockWords, wordsOf_getD hlen j.isLt, hbyte, hbyte, hbyte, hbyte, le32]

theorem mixBlock_eq_foldl (S : Quad) (blk : Vector Byte 64) :
    mixBlock S blk =
      (List.range 48).foldl (fun w n => mixStep (stepRow n) ((blockWords blk).getD (stepRow n).k.val 0) w) S := by
  have hlen : (blockWords blk).length = 16 := wordsOf_length (n := 16) Vector.length_toList
  rw [mixBlock, scheduledSteps_eq_map_range hlen, mixSteps, List.foldl_map]

theorem compress_eq_of_mixBlock_eq {s : State} {w : Quad} (h : mixBlock s.S s.BUF = w) :
    compress s = { s with S := ⟨s.S.a + w.a, s.S.b + w.b, s.S.c + w.c, s.S.d + w.d⟩, W := w } := by
  rw [compress, compressBlock, h]
  rfl

/-- The digest state of the empty message, evaluated (R113, V-S1). -/
theorem md4_nil : md4 [] = ⟨0xE0CFD631, 0x31E96AD1, 0xD7593CB7, 0xC089C0E0⟩ := by decide +kernel

end Sys2Proof.Machine
end

section
/-! The statements of 40_md4_compression.md. -/

namespace Sys2Proof.Proofs

open Sys2Proof.Machine

/-- Settles O30, from the three functions bit by bit; F of 0, 1, 1 is 1 and F of 1, 0, 1 is 0. -/
theorem roundFunctionsBitwise : Obligations.RoundFunctionsBitwise :=
  ⟨fun x y z i hi => ⟨getLsbD_fnF x y z hi, getLsbD_fnG x y z i, getLsbD_fnH x y z i⟩,
    fun _ _ _ => ⟨rfl, rfl, rfl⟩, ⟨0, 1, 1, by decide⟩,
    fun x y z => ⟨fnG_swap_left x y z, fnG_swap_right x y z, fnH_swap_left x y z, fnH_swap_right x y z⟩⟩

/-- Settles O32: a step sets its target alone, and the registers in cyclic order after each target are written out. -/
theorem mixStepWritesOnlyTarget : Obligations.MixStepWritesOnlyTarget :=
  fun _ x w => ⟨fun _ ht => mixStep_get_of_ne ht x w, fun ht => mixStep_get_target ht x w,
    fun ht => mixStep_get_target ht x w, fun ht => mixStep_get_target ht x w, fun ht => mixStep_get_target ht x w⟩

/-- Settles O33: the three tables are evaluated; the function and the constant are those of each row's round. -/
theorem stepTableRows : Obligations.StepTableRows := by
  refine ⟨by decide, by decide, by decide, fun n hn => ?_⟩
  rw [stepRow_eq_round1 hn, stepRow_eq_round2 hn, stepRow_eq_round3]
  exact ⟨rfl, rfl, rfl, rfl, rfl, rfl⟩

/-- Settles O34: the schedule is the 48 rows in order, and the word of each row is read off the bytes of BUF. -/
theorem compressRunsTheStepTable : Obligations.CompressRunsTheStepTable := by
  refine fun s => compress_eq_of_mixBlock_eq ?_
  rw [mixBlock_eq_foldl]
  simp only [blockWords_getD]

/-- Settles O35: FINAL leaves the digest of the bytes fed since reset, here none, and `md4 []` is evaluated. -/
theorem emptyMessageDigest : Obligations.EmptyMessageDigest := by
  obtain ⟨t, hstep, ht, -, -⟩ := step_final_of_message (s := State.reset.withFetchWord 32 0x00000004) (rest := [])
    rfl rfl rfl rfl ⟨rfl, rfl, rfl⟩ rfl []
  exact ⟨t, hstep, ht.acc.trans md4_nil, ht.statusWord_eq⟩

end Sys2Proof.Proofs
end

section
/-! Appended message bytes as one effect on the whole state (R140, R141), and what FINAL's padding does to S (R145). -/

namespace Sys2Proof.Machine

/-- A byte of the current block, read out of BUF. -/
theorem getElem_BUF_eq_currentBytes_getD {s : State} {i : Fin 64} (hi : i < s.FILL) :
    s.BUF[i] = (currentBytes s).getD i.val 0 := by
  have hlt : i.val < (currentBytes s).length := by rw [currentBytes_length]; exact hi
  rw [List.getD_eq_getElem _ _ hlt]
  simp [currentBytes]

theorem appendMsgs_messageAppended {bs : List Byte} (hlen : bs.length ≤ 64) (s : State) :
    MessageAppended bs s (appendMsgs bs s) := by
  have hfill := s.FILL.isLt
  have haside := appendMsgs_sameAside bs s
  refine
    { len := appendMsgs_LEN bs s, fill := appendMsgs_FILL bs s, acc := ?_, current := fun i hi => ?_
      above := fun hfits i hi => ?_, done := haside.done, errCmd := haside.errCmd, errEnc := haside.errEnc
      errSeq := haside.errSeq, data := haside.data, pending := haside.pending, observed := haside.observed }
  · rw [appendMsgs_S]
    split
    · next hfits => exact appendRaws_S_of_fits bs s hfits
    · next hfull => exact appendRaws_S_of_fills bs s (by omega) (by omega)
  · rw [getElem_BUF_eq_currentBytes_getD hi, (appendMsgs_chain bs s).2, List.getD_eq_getElem?_getD,
      List.getElem?_drop, ← List.getD_eq_getElem?_getD]
    rfl
  · rw [appendMsgs_BUF]
    exact appendRaws_BUF_kept bs s hfits i (.inr hi)

/-- The padding compresses one block or two, by FILL (R145, R146). -/
theorem padMessage_S (s : State) :
    (padMessage s).S = if s.FILL.val ≤ 55 then compressBlock s.S (firstPaddingBlock s)
      else compressBlock (compressBlock s.S (firstPaddingBlock s)) (secondPaddingBlock s) := by
  split
  · next hone => exact padMessage_S_of_le s hone
  · next htwo => exact padMessage_S_of_ge s (by omega)

end Sys2Proof.Machine
end

section
/-! DONE and what it protects (R148, R202): which commands and events raise it, and what the others keep while it is 1. -/

namespace Sys2Proof.Machine

/-- The finished result: DONE, and the digest, LEN and FILL as in `s`. -/
structure KeepsFinished (s t : State) : Prop where
  done : t.DONE = true
  acc : t.S = s.S
  len : t.LEN = s.LEN
  fill : t.FILL = s.FILL

theorem raiseError_keepsFinished (k : ErrorKind) {s : State} (h : s.DONE = true) : KeepsFinished s (raiseError k s) :=
  ⟨(raiseError_DONE k s).trans h, raiseError_S k s, raiseError_LEN k s, raiseError_FILL k s⟩

/-- Of the commands only FINAL raises DONE (R145, R148). -/
theorem eq_final_of_afterCommand_DONE {i : Instr} {s : State} (h : s.DONE = false)
    (ht : (afterCommand i s).DONE = true) : i = .final := by
  have hbytes (bs : List Byte) : (appendMsgs bs s).DONE ≠ true := by
    simp [(appendMsgs_sameAside bs s).done, h]
  rcases afterCommand_cases i s with ⟨-, he⟩ | ⟨-, hdone, -⟩ | ⟨-, -, -, he⟩ | ⟨bs, -, -, he⟩ | ⟨bs, -, -, -, -, he⟩ |
    ⟨hi, -, -⟩
  · simp [he] at ht
  · simp [h] at hdone
  · simp [he, h] at ht
  · exact absurd (he ▸ ht) (hbytes bs)
  · exact absurd (he ▸ ht) (hbytes bs)
  · exact hi

/-- An event raises DONE only as the CMD write of FINAL. -/
theorem eq_final_of_perform_DONE {e : Event} {s t : State} (he : perform e s = .next t) (h : s.DONE = false)
    (ht : t.DONE = true) : ∃ w, e = .write 0x00 4 w ∧ decode w = .ok .final := by
  rcases perform_cases he with ⟨-, rfl⟩ | ⟨off, -, -, rfl⟩ | ⟨w, i, rfl, hw, rfl⟩ | ⟨w, r, -, -, rfl⟩ | ⟨v, -, rfl⟩ |
    ⟨off, v, -, -, -, -, rfl⟩
  · simp at ht
  · simp [h] at ht
  · exact ⟨w, rfl, eq_final_of_afterCommand_DONE h ht ▸ hw⟩
  · simp [h] at ht
  · simp [h] at ht
  · simp [h] at ht

/-- While DONE = 1, an event that is neither a reset nor INIT keeps the finished result (R148, R202). -/
theorem perform_keepsFinished {e : Event} {s t : State} (he : perform e s = .next t) (h : s.DONE = true)
    (hreset : e ≠ .reset) (hinit : ∀ w, e = .write 0x00 4 w → decode w ≠ .ok .init) : KeepsFinished s t := by
  rcases perform_cases he with ⟨heq, -⟩ | ⟨off, -, -, rfl⟩ | ⟨w, i, heq, hw, rfl⟩ | ⟨w, r, -, -, rfl⟩ | ⟨v, -, rfl⟩ |
    ⟨off, v, -, -, -, -, rfl⟩
  · exact absurd heq hreset
  · exact ⟨h, rfl, rfl, rfl⟩
  · have hi : i ≠ .init := fun hi => hinit w heq (hi ▸ hw)
    rw [afterCommand_done h hi]
    exact raiseError_keepsFinished .seq h
  · exact raiseError_keepsFinished .cmd h
  · exact ⟨h, rfl, rfl, rfl⟩
  · exact ⟨h, rfl, rfl, rfl⟩

end Sys2Proof.Machine
end

section
/-! A message given as groups of 1 to 4 bytes, each a DATA write and an ABSORB (R71, R144). -/

namespace Sys2Proof.Machine

/-- The feeds of a list of groups: a DATA write and ABSORB.c for each count and word. -/
def countedFeeds (groups : List (Nat × Word)) : List Feed := groups.flatMap (fun g => [.data g.2, .absorb g.1])

theorem countedFeeds_length (groups : List (Nat × Word)) : (countedFeeds groups).length = 2 * groups.length := by
  simp [countedFeeds, List.length_flatMap, Nat.mul_comm]

theorem absorbAccesses_eq_feedEvents (groups : List (Nat × Word)) :
    groups.flatMap (fun g => absorbAccesses g.1 g.2) = feedEvents (countedFeeds groups) := by
  rw [countedFeeds, feedEvents_flatMap]
  rfl

theorem feedBytes_countedFeeds {groups : List (Nat × Word)} (hcounts : ∀ g ∈ groups, 1 ≤ g.1 ∧ g.1 ≤ 4) (d : Word) :
    feedBytes (countedFeeds groups) d = some (groups.flatMap (fun g => absorbBytes g.1 g.2)) := by
  induction groups generalizing d with
  | nil => rfl
  | cons g groups ih =>
    obtain ⟨hg, hgroups⟩ := List.forall_mem_cons.mp hcounts
    have hhead := feedBytes_data_absorb hg g.2 (countedFeeds groups) d
    rw [ih hgroups] at hhead
    exact hhead

/-- DATA and the accesses still to come apart, where feeds lead depends only on the bytes they append (R152). -/
theorem run_feedEvents {fs : List Feed} {s : State} {bs : List Byte} {es rest : List Event}
    (hbytes : feedBytes fs s.DATA = some bs) (hdone : s.DONE = false) (hes : es = feedEvents fs ++ rest) :
    Sys2Proof.core.run (feedEvents fs).length (setPending es s) =
      .next (setData (feedData fs s.DATA) (setPending rest (appendMsgs bs s))) := by
  rw [feedEvents_length, run_feeds (s := setPending es s) hbytes hdone hes, ← appendMsgs_setData_setPending]
  rfl

end Sys2Proof.Machine
end

section
/-! The statements of 41_md4_message.md. -/

namespace Sys2Proof.Proofs

open Sys2Proof.Machine

/-- Settles O17: INIT writes constants, so a second INIT writes the same ones, and the first left an empty block. -/
theorem initStartsComputation : Obligations.InitStartsComputation := by
  refine fun s => ⟨beginMessage s, exec_eq .init s, rfl, rfl, rfl, rfl, rfl, rfl, rfl, rfl, rfl, rfl, _,
    exec_eq .init _, ?_⟩
  exact
    { acc := rfl, fill := rfl, len := rfl, done := rfl, errCmd := rfl, errEnc := rfl, errSeq := rfl, data := rfl
      pending := rfl, observed := rfl, buf := SameVisible.buf_of_empty rfl }

/-- Settles O18: ABSORB.c appends its bytes, at most 4, and `appendMsgs_messageAppended` says what that does. -/
theorem absorbAppendsDataBytes : Obligations.AbsorbAppendsDataBytes := by
  intro c s _ hc hdone
  have hlen : (absorbBytes c s.DATA).length ≤ 64 := by rw [absorbBytes_length]; omega
  exact ⟨_, (exec_eq _ s).trans (congrArg _ (afterCommand_absorb hdone c)), appendMsgs_messageAppended hlen s⟩

/-- Settles O21: FINAL is the padding and then DONE. The padding ends in the current block up to FILL = 55 and in the next
one from 56 on (`padMessage_S`), and leaves the block empty. -/
theorem finalPadsAndCompresses : Obligations.FinalPadsAndCompresses := by
  intro s hdone
  have hS := padMessage_S s
  have hexec := (exec_eq .final s).trans (congrArg _ (afterCommand_final hdone))
  have hfill := padMessage_FILL s
  have hlen := padMessage_LEN s
  have haside := padMessage_sameAside s
  generalize padMessage s = padded at *
  exact ⟨setDone padded, hexec, hS, rfl, hfill, hlen, haside.errCmd, haside.errEnc, haside.errSeq, haside.data,
    haside.pending, haside.observed⟩

/-- Settles O22: from no FILL does the loop need more than 63 zeros (`padZeros_eq`), and FILL counts them. -/
theorem paddingLoopReaches56 : Obligations.PaddingLoopReaches56 := by
  intro s fuel hfuel
  have hfill := s.FILL.isLt
  have hzeros := padZeros_eq fuel s (by omega)
  refine ⟨Fin.ext ?_, hzeros⟩
  rw [hzeros, appendRaws_FILL, List.length_replicate]
  omega

/-- Settles O28: a step performs the head of the accesses, and `eq_final_of_perform_DONE` and `perform_keepsFinished` say
what an event does to DONE and while it is 1. -/
theorem finishedDigestIsKept : Obligations.FinishedDigestIsKept := by
  intro s t h
  rcases step_cases h with ⟨-, rfl⟩ | ⟨e, rest, hp, he⟩
  · exact ⟨fun hdone ht => absurd (hdone.symm.trans ht) Bool.false_ne_true, fun hdone _ _ => ⟨hdone, rfl, rfl, rfl⟩⟩
  · refine ⟨fun hdone ht => ?_, fun hdone hreset hinit => ?_⟩
    · obtain ⟨w, rfl, hw⟩ := eq_final_of_perform_DONE he hdone ht
      exact ⟨w, rest, hp, hw⟩
    · have hkept := perform_keepsFinished he hdone (fun heq => hreset rest (heq ▸ hp))
        (fun w heq => hinit w rest (heq ▸ hp))
      exact ⟨hkept.done, hkept.acc, hkept.len, hkept.fill⟩

/-- Settles O41: accepted feeds append their bytes (`run_feedEvents`), and appended bytes chain the whole blocks and leave
the rest in BUF (`appendMsgs_chain`). -/
theorem feedsChainBlocks : Obligations.FeedsChainBlocks := by
  intro s fs bs rest hbytes hdone hp
  have hrun := run_feedEvents (s := s) hbytes hdone hp
  have haside := appendMsgs_sameAside bs s
  obtain ⟨hS, hrest⟩ := appendMsgs_chain bs s
  exact ⟨_, hrun, appendMsgs_LEN bs s, appendMsgs_FILL bs s, hS, hrest, rfl, haside.done.trans hdone, haside.errCmd,
    haside.errEnc, haside.errSeq, rfl, haside.observed⟩

/-- Settles O42: INIT, accepted feeds and FINAL leave the digest (`run_message`), and a DATA write and an ABSORB for each
group are such feeds. -/
theorem digestContract : Obligations.DigestContract := by
  refine ⟨fun s m fs rest hbytes hp => ?_, fun s m groups rest hcounts hm hp => ?_⟩
  · obtain ⟨t, hrun, ht, hpending, hobserved⟩ := run_message hbytes hp
    exact ⟨t, hrun, ht.done, ht.noError, ht.len, congrArg digestBytes ht.acc, hpending, hobserved⟩
  · rw [absorbAccesses_eq_feedEvents] at hp
    have hbytes : feedBytes (countedFeeds groups) s.DATA = some m := hm ▸ feedBytes_countedFeeds hcounts s.DATA
    obtain ⟨t, hrun, ht, hpending, hobserved⟩ := run_message hbytes hp
    rw [countedFeeds_length] at hrun
    exact ⟨t, hrun, ht.done, ht.noError, ht.len, congrArg digestBytes ht.acc, hpending, hobserved⟩

/-- Settles O44: both sequences lead to the one state that the bytes give, but for DATA (`run_feedEvents`). -/
theorem groupingInvariance : Obligations.GroupingInvariance := by
  intro s fs gs bs hfs hgs hdone
  have hrunf := run_feedEvents hfs hdone (List.append_nil _).symm
  have hrung := run_feedEvents hgs hdone (List.append_nil _).symm
  exact ⟨_, _, hrunf, hrung, rfl, rfl, rfl, fun _ _ => rfl⟩

end Sys2Proof.Proofs
end

section
/-! The hex formatter (R175 to R177): each character shows one nibble of the digest, and the nibbles are all of it. -/

namespace Sys2Proof.Machine

/-- HEXCHAR answers a digit or an uppercase letter A to F, in ASCII (R175). -/
theorem hexChar_range :
    ∀ v : BitVec 4, (0x30 ≤ (hexChar v).toNat ∧ (hexChar v).toNat ≤ 0x39) ∨
      (0x41 ≤ (hexChar v).toNat ∧ (hexChar v).toNat ≤ 0x46) := by decide

theorem hexChar_injective : ∀ u v : BitVec 4, hexChar u = hexChar v → u = v := by decide

/-- The nibble that character `n` of the hex string shows: of each digest byte the high one first (R176). -/
def digestNibble (S : Quad) (n : Nat) : BitVec 4 :=
  if n % 2 = 0 then (digestByte S (n / 2)).extractLsb' 4 4 else (digestByte S (n / 2)).extractLsb' 0 4

theorem hexText_eq_hexChar (S : Quad) (n : Nat) : hexText S n = hexChar (digestNibble S n) :=
  (apply_ite hexChar _ _ _).symm

theorem digestNibble_even (S : Quad) (n : Nat) : digestNibble S (2 * n) = (digestByte S n).extractLsb' 4 4 := by
  rw [digestNibble, if_pos (Nat.mul_mod_right 2 n), Nat.mul_div_cancel_left n (by decide)]

theorem digestNibble_odd (S : Quad) (n : Nat) : digestNibble S (2 * n + 1) = (digestByte S n).extractLsb' 0 4 := by
  have hhalf : (2 * n + 1) / 2 = n := by omega
  rw [digestNibble, if_neg (by omega), hhalf]

/-- Byte m of HEXj is character 4j + m (R177). -/
theorem byteOf_readReg_hex (s : State) (j : Fin 8) (m : Fin 4) :
    byteOf (readReg (.hex j) s) m.val = hexChar (digestNibble s.S (4 * j.val + m.val)) := by
  rw [readReg, byteOf_hexWord, hexText_eq_hexChar]

/-- Character n is byte n mod 4 of HEX[n div 4] (R177). -/
theorem hexChar_digestNibble (s : State) {n : Nat} (hn : n < 32) :
    hexChar (digestNibble s.S n) = byteOf (readReg (.hex ⟨n / 4, by omega⟩) s) (n % 4) := by
  have h := byteOf_readReg_hex s ⟨n / 4, by omega⟩ ⟨n % 4, by omega⟩
  simp only [Nat.div_add_mod] at h
  exact h.symm

theorem byte_ext_nibbles {a b : Byte} (hhigh : a.extractLsb' 4 4 = b.extractLsb' 4 4)
    (hlow : a.extractLsb' 0 4 = b.extractLsb' 0 4) : a = b := by
  have ha := a.isLt
  have hb := b.isLt
  have hhigh := congrArg BitVec.toNat hhigh
  have hlow := congrArg BitVec.toNat hlow
  simp only [BitVec.extractLsb'_toNat, Nat.shiftRight_eq_div_pow] at hhigh hlow
  apply BitVec.eq_of_toNat_eq
  omega

theorem digestByte_eq_byteOf (S : Quad) (i : Fin 4) {m : Nat} (hm : m < 4) :
    digestByte S (4 * i.val + m) = byteOf (S.get i) m := by
  have hword : (4 * i.val + m) / 4 = i.val := by omega
  have hbyte : (4 * i.val + m) % 4 = m := by omega
  rw [digestByte, hword, hbyte, Fin.ofNat_val_eq_self]

theorem quad_ext_get {p q : Quad} (h : ∀ i, p.get i = q.get i) : p = q := by
  cases p
  cases q
  rw [Quad.mk.injEq]
  exact ⟨h 0, h 1, h 2, h 3⟩

/-- The sixteen digest bytes are all of S (R147). -/
theorem quad_ext_digestByte {p q : Quad} (h : ∀ n < 16, digestByte p n = digestByte q n) : p = q := by
  refine quad_ext_get fun i => eq_of_byteOf_eq fun m hm => ?_
  rw [← digestByte_eq_byteOf p i hm, ← digestByte_eq_byteOf q i hm]
  exact h _ (by omega)

/-- The thirty-two nibbles are all of S (R176). -/
theorem quad_ext_digestNibble {p q : Quad} (h : ∀ n < 32, digestNibble p n = digestNibble q n) : p = q := by
  refine quad_ext_digestByte fun n hn => byte_ext_nibbles ?_ ?_
  · rw [← digestNibble_even, ← digestNibble_even]
    exact h _ (by omega)
  · rw [← digestNibble_odd, ← digestNibble_odd]
    exact h _ (by omega)

theorem hexString_getD (S : Quad) {n : Nat} (h : n < 32) : (hexString S).getD n 0 = hexText S n := by
  simp [hexString, h]

end Sys2Proof.Machine
end

section
/-! The UTF-16LE encoder (R170 to R172): how many bytes a code point has, and that its bytes determine it, whatever bytes
come after them. -/

namespace Sys2Proof.Machine

/-- Up to 0xFFFF the bytes are the low two of DATA (R171). -/
theorem utf16leBytes_bmp_eq_extract {cp : Word} (h : cp.toNat ≤ 0xFFFF) :
    utf16leBytes cp = [cp.extractLsb' 0 8, cp.extractLsb' 8 8] := by
  have hlow : BitVec.ofNat 8 (cp.toNat % 0x100) = cp.extractLsb' 0 8 := by
    apply BitVec.eq_of_toNat_eq
    simp
  have hhigh : BitVec.ofNat 8 (cp.toNat / 0x100) = cp.extractLsb' 8 8 := by
    apply BitVec.eq_of_toNat_eq
    simp [Nat.shiftRight_eq_div_pow]
  rw [utf16leBytes_bmp h, hlow, hhigh]

theorem utf16leBytes_length_bmp {cp : Word} (h : cp.toNat ≤ 0xFFFF) : (utf16leBytes cp).length = 2 := by
  rw [utf16leBytes_bmp h]
  rfl

theorem utf16leBytes_length_supplementary {cp : Word} (hvalid : validCodePoint cp = true) (h : 0xFFFF < cp.toNat) :
    (utf16leBytes cp).length = 4 := by
  rw [validCodePoint_iff] at hvalid
  rw [utf16leBytes_supplementary h (by omega)]
  rfl

/-- The second byte is the high byte of the first unit, which is 0xD8 to 0xDB in a surrogate pair alone (R170, R172). -/
theorem utf16leBytes_length_eq_ite {cp : Word} (hvalid : validCodePoint cp = true) :
    (utf16leBytes cp).length = if ((utf16leBytes cp).getD 1 0).toNat / 4 = 0x36 then 4 else 2 := by
  have hrange := (validCodePoint_iff cp).mp hvalid
  rcases Nat.lt_or_ge 0xFFFF cp.toNat with hsup | hbmp
  · rw [utf16leBytes_length_supplementary hvalid hsup, utf16leBytes_supplementary hsup (by omega), if_pos]
    simp only [List.getD_cons_succ, List.getD_cons_zero, BitVec.toNat_ofNat]
    omega
  · rw [utf16leBytes_length_bmp hbmp, utf16leBytes_bmp hbmp, if_neg]
    simp only [List.getD_cons_succ, List.getD_cons_zero, BitVec.toNat_ofNat]
    omega

theorem two_le_utf16leBytes_length {cp : Word} (hvalid : validCodePoint cp = true) : 2 ≤ (utf16leBytes cp).length := by
  rw [utf16leBytes_length_eq_ite hvalid]
  split <;> decide

/-- The code point that one unit, or a surrogate pair, stands for: R171 and R172 read backwards. -/
def codePointOf : List Byte → Nat
  | [b0, b1] => b0.toNat + 0x100 * b1.toNat
  | [b0, b1, b2, b3] =>
    0x400 * (b0.toNat + 0x100 * b1.toNat - 0xD800) + (b2.toNat + 0x100 * b3.toNat - 0xDC00) + 0x10000
  | _ => 0

theorem codePointOf_utf16leBytes {cp : Word} (hvalid : validCodePoint cp = true) :
    codePointOf (utf16leBytes cp) = cp.toNat := by
  have hrange := (validCodePoint_iff cp).mp hvalid
  rcases Nat.lt_or_ge 0xFFFF cp.toNat with hsup | hbmp
  · rw [utf16leBytes_supplementary hsup (by omega)]
    simp only [codePointOf, BitVec.toNat_ofNat]
    omega
  · rw [utf16leBytes_bmp hbmp]
    simp only [codePointOf, BitVec.toNat_ofNat]
    omega

theorem utf16leBytes_injective {x y : Word} (hx : validCodePoint x = true) (hy : validCodePoint y = true)
    (h : utf16leBytes x = utf16leBytes y) : x = y := by
  apply BitVec.eq_of_toNat_eq
  rw [← codePointOf_utf16leBytes hx, ← codePointOf_utf16leBytes hy, h]

/-- Where the bytes of the first code point end is seen in the second of them. -/
theorem utf16leBytes_append_inj {x y : Word} (hx : validCodePoint x = true) (hy : validCodePoint y = true)
    {as bs : List Byte} (h : utf16leBytes x ++ as = utf16leBytes y ++ bs) : x = y ∧ as = bs := by
  have hsecond : (utf16leBytes x).getD 1 0 = (utf16leBytes y).getD 1 0 := by
    have h1 := congrArg (fun cs : List Byte => cs.getD 1 0) h
    rwa [List.getD_append _ _ _ _ (two_le_utf16leBytes_length hx),
      List.getD_append _ _ _ _ (two_le_utf16leBytes_length hy)] at h1
  have hlength : (utf16leBytes x).length = (utf16leBytes y).length := by
    rw [utf16leBytes_length_eq_ite hx, utf16leBytes_length_eq_ite hy, hsecond]
  obtain ⟨hbytes, hrest⟩ := List.append_inj h hlength
  exact ⟨utf16leBytes_injective hx hy hbytes, hrest⟩

end Sys2Proof.Machine
end

section
/-! Strings of code points (R173, R179, R180): the length of their encoding, and that it determines them. -/

namespace Sys2Proof.Machine

theorem utf16leMessage_cons (cp : Word) (cps : List Word) :
    utf16leMessage (cp :: cps) = utf16leBytes cp ++ utf16leMessage cps := List.flatMap_cons

/-- Two bytes for each BMP code point and four for each supplementary one (R171, R172). -/
theorem utf16leMessage_length {cps : List Word} (hvalid : ∀ cp ∈ cps, validCodePoint cp = true) :
    (utf16leMessage cps).length = 2 * cps.countP (fun cp => decide (cp.toNat ≤ 0xFFFF)) +
      4 * cps.countP (fun cp => decide (0xFFFF < cp.toNat)) := by
  induction cps with
  | nil => rfl
  | cons cp cps ih =>
    obtain ⟨hcp, hcps⟩ := List.forall_mem_cons.mp hvalid
    simp only [utf16leMessage_cons, List.length_append, ih hcps, List.countP_cons, decide_eq_true_eq]
    rcases Nat.lt_or_ge 0xFFFF cp.toNat with hsup | hbmp
    · rw [utf16leBytes_length_supplementary hcp hsup, if_neg (Nat.not_le.mpr hsup), if_pos hsup]
      omega
    · rw [utf16leBytes_length_bmp hbmp, if_pos hbmp, if_neg (Nat.not_lt.mpr hbmp)]
      omega

theorem utf16leMessage_cons_ne_nil {cp : Word} (hvalid : validCodePoint cp = true) (cps : List Word) :
    utf16leMessage (cp :: cps) ≠ [] := by
  have hlen := two_le_utf16leBytes_length hvalid
  rw [utf16leMessage_cons]
  exact List.append_ne_nil_of_left_ne_nil (List.ne_nil_of_length_pos (by omega)) _

theorem utf16leMessage_injective {xs ys : List Word} (hxs : ∀ x ∈ xs, validCodePoint x = true)
    (hys : ∀ y ∈ ys, validCodePoint y = true) (h : utf16leMessage xs = utf16leMessage ys) : xs = ys := by
  induction xs generalizing ys with
  | nil =>
    cases ys with
    | nil => rfl
    | cons y ys => exact absurd h.symm (utf16leMessage_cons_ne_nil (hys y List.mem_cons_self) ys)
  | cons x xs ih =>
    obtain ⟨hx, hxs⟩ := List.forall_mem_cons.mp hxs
    cases ys with
    | nil => exact absurd h (utf16leMessage_cons_ne_nil hx xs)
    | cons y ys =>
      obtain ⟨hy, hys⟩ := List.forall_mem_cons.mp hys
      rw [utf16leMessage_cons, utf16leMessage_cons] at h
      obtain ⟨hhead, htail⟩ := utf16leBytes_append_inj hx hy h
      rw [hhead, ih hxs hys htail]

theorem codePointFeeds_length (cps : List Word) : (codePointFeeds cps).length = 2 * cps.length := by
  simp [codePointFeeds, List.length_flatMap, Nat.mul_comm]

/-- ABSORB_CP of a valid code point while accepting appends its bytes (R174). -/
theorem exec_absorbCp_messageAppended {s : State} (hdone : s.DONE = false) (hvalid : validCodePoint s.DATA = true) :
    ∃ t, exec .absorbCp s = .next t ∧ MessageAppended (utf16leBytes s.DATA) s t := by
  have hafter : afterCommand .absorbCp s = appendMsgs (utf16leBytes s.DATA) s :=
    afterCommand_absorbCp hdone (if_pos hvalid)
  have hlen : (utf16leBytes s.DATA).length ≤ 64 := (utf16leBytes_length_le s.DATA).trans (by decide)
  exact ⟨_, (exec_eq _ s).trans (congrArg _ hafter), appendMsgs_messageAppended hlen s⟩

end Sys2Proof.Machine
end

section
/-! The statements of 42_ntlm_adapter.md. -/

namespace Sys2Proof.Proofs

open Sys2Proof.Machine

/-- Settles O19: both ranges are valid code points, so their bytes are appended (`exec_absorbCp_messageAppended`), and the
encoder's bytes are written out for each range. -/
theorem absorbCpAppendsUtf16le : Obligations.AbsorbCpAppendsUtf16le := by
  refine fun s hdone => ⟨fun hbmp => ?_, fun ⟨hlo, hhi⟩ => ?_⟩
  · have h := exec_absorbCp_messageAppended hdone ((validCodePoint_iff s.DATA).mpr (by omega))
    rwa [utf16leBytes_bmp_eq_extract (by omega)] at h
  · obtain ⟨t, hexec, ht⟩ := exec_absorbCp_messageAppended hdone ((validCodePoint_iff s.DATA).mpr (by omega))
    rw [utf16leBytes_supplementary hlo hhi] at ht
    exact ⟨t, _, _, rfl, rfl, by omega, by omega, hexec, ht⟩

/-- Settles O37: each byte is the HEXCHAR of a nibble, and HEXCHAR's sixteen values are evaluated. -/
theorem hexBytesAreUppercaseHex : Obligations.HexBytesAreUppercaseHex := by
  intro s j m
  rw [byteOf_readReg_hex]
  exact hexChar_range _

/-- Settles O38: byte m of HEXj shows nibble 4j + m (`byteOf_readReg_hex`), and the digest byte it is taken from is one of
S[(4j + m) div 8]. -/
theorem hexRegistersRenderDigest : Obligations.HexRegistersRenderDigest := by
  intro s j m ch
  have hword : ch / 8 = ch / 2 / 4 := (Nat.div_div_eq_div_mul ch 2 4).symm
  rw [byteOf_readReg_hex, hword]
  rfl

/-- Settles O39: HEXCHAR is injective, and the registers show every nibble of S. -/
theorem hexRegistersDetermineDigest : Obligations.HexRegistersDetermineDigest := by
  intro s t h
  refine quad_ext_digestNibble fun n hn => hexChar_injective _ _ ?_
  rw [hexChar_digestNibble s hn, hexChar_digestNibble t hn, h]

/-- Settles O40, by induction on the strings: the bytes determine the first code point and where its bytes end
(`utf16leBytes_append_inj`). -/
theorem encodingIsInjective : Obligations.EncodingIsInjective :=
  fun _ _ hxs hys h => utf16leMessage_injective hxs hys h

/-- Settles O43: the host sequence is a message fed by code points (`run_message`), and the HEX registers render the S it
leaves. -/
theorem ntlmContract : Obligations.NtlmContract := by
  intro s cps rest hvalid hp
  rw [absorbTextAccesses_eq] at hp
  obtain ⟨t, hrun, ht, hpending, -⟩ := run_message (feedBytes_codePointFeeds hvalid s.DATA) hp
  rw [codePointFeeds_length] at hrun
  have hlen := ht.len
  rw [utf16leMessage_length hvalid, Nat.mul_add, ← Nat.mul_assoc, ← Nat.mul_assoc] at hlen
  refine ⟨t, hrun, ht.done, ht.statusWord_eq, hlen, fun j k => ?_, hpending⟩
  rw [ntlmHash, hexString_getD _ (by omega), hexText_eq_hexChar, ← ht.acc]
  exact byteOf_readReg_hex t j k

end Sys2Proof.Proofs
end

section
/-! The error conditions (R200 to R205): what each is, what it does, and that nothing else raises a flag. -/

namespace Sys2Proof.Machine

@[simp] theorem errorFlag_beginMessage (k : ErrorKind) (s : State) : errorFlag k (beginMessage s) = false := by
  cases k <;> rfl
@[simp] theorem errorFlag_hardReset (k : ErrorKind) (s : State) : errorFlag k (hardReset s) = false := by cases k <;> rfl
@[simp] theorem errorFlag_setDone (k : ErrorKind) (s : State) : errorFlag k (setDone s) = errorFlag k s := by
  cases k <;> rfl
@[simp] theorem errorFlag_setData (k : ErrorKind) (v : Word) (s : State) :
    errorFlag k (setData v s) = errorFlag k s := by cases k <;> rfl
@[simp] theorem errorFlag_recordRead (k : ErrorKind) (v : Word) (s : State) :
    errorFlag k (recordRead v s) = errorFlag k s := by cases k <;> rfl
@[simp] theorem errorFlag_setPending (k : ErrorKind) (es : List Event) (s : State) :
    errorFlag k (setPending es s) = errorFlag k s := by cases k <;> rfl

theorem SameAside.errorFlag_eq {s t : State} (h : SameAside s t) (k : ErrorKind) : errorFlag k t = errorFlag k s :=
  match k with
  | .cmd => h.errCmd
  | .seq => h.errSeq
  | .enc => h.errEnc

/-- The condition of an error, for a CMD write that decodes as `d` (R201 to R203). -/
def ErrorCause (k : ErrorKind) (d : Except Illegal Instr) (s : State) : Prop :=
  match k with
  | .cmd => ∃ r, d = .error r
  | .seq => ∃ i, d = .ok i ∧ i ≠ .init ∧ s.DONE = true
  | .enc => d = .ok .absorbCp ∧ s.DONE = false ∧ validCodePoint s.DATA = false

theorem errorCause_setPending (k : ErrorKind) (d : Except Illegal Instr) (es : List Event) (s : State) :
    ErrorCause k d (setPending es s) ↔ ErrorCause k d s := by cases k <;> rfl

/-! The conditions in the order of their tests (R204): an illegal word, DONE = 1, a rejected code point. -/

theorem errorCause_error_iff {k : ErrorKind} {r : Illegal} {s : State} : ErrorCause k (.error r) s ↔ k = .cmd := by
  cases k <;> simp [ErrorCause]

theorem errorCause_iff_of_done {k : ErrorKind} {i : Instr} {s : State} (h : s.DONE = true) :
    ErrorCause k (.ok i) s ↔ k = .seq ∧ i ≠ .init := by
  cases k <;> simp [ErrorCause, h]

theorem errorCause_iff_of_accepting {k : ErrorKind} {i : Instr} {s : State} (h : s.DONE = false) :
    ErrorCause k (.ok i) s ↔ k = .enc ∧ i = .absorbCp ∧ validCodePoint s.DATA = false := by
  cases k <;> simp [ErrorCause, h]

/-- The conditions exclude each other (R204). -/
theorem ErrorCause.unique {j k : ErrorKind} {d : Except Illegal Instr} {s : State} (hj : ErrorCause j d s)
    (hk : ErrorCause k d s) : j = k := by
  cases d with
  | error r => exact (errorCause_error_iff.mp hj).trans (errorCause_error_iff.mp hk).symm
  | ok i =>
    cases hdone : s.DONE with
    | true => exact ((errorCause_iff_of_done hdone).mp hj).1.trans ((errorCause_iff_of_done hdone).mp hk).1.symm
    | false =>
      exact ((errorCause_iff_of_accepting hdone).mp hj).1.trans ((errorCause_iff_of_accepting hdone).mp hk).1.symm

/-- A command that meets an error's condition raises that error and does nothing else (R202, R203). -/
theorem afterCommand_of_errorCause {k : ErrorKind} {i : Instr} {s : State} (h : ErrorCause k (.ok i) s) :
    afterCommand i s = raiseError k s := by
  cases hdone : s.DONE with
  | true =>
    obtain ⟨rfl, hi⟩ := (errorCause_iff_of_done hdone).mp h
    exact afterCommand_done hdone hi
  | false =>
    obtain ⟨rfl, rfl, hvalid⟩ := (errorCause_iff_of_accepting hdone).mp h
    exact (whileAccepting_accepting _ hdone).trans (absorbCodePoint_invalid hvalid)

theorem exec_of_errorCause {k : ErrorKind} {i : Instr} {s : State} (h : ErrorCause k (.ok i) s) :
    exec i s = .next (raiseError k s) := by rw [exec_eq, afterCommand_of_errorCause h]

theorem performCommand_of_errorCause {k : ErrorKind} {w : Word} {s : State} (h : ErrorCause k (decode w) s) :
    performCommand w s = .next (raiseError k s) := by
  cases hw : decode w with
  | ok i => rw [performCommand_ok hw, afterCommand_of_errorCause (hw ▸ h)]
  | error r =>
    rw [hw, errorCause_error_iff] at h
    rw [performCommand_error hw, h]

theorem step_of_errorCause {k : ErrorKind} {w : Word} {s : State} {rest : List Event}
    (hp : s.pending = .write 0x00 4 w :: rest) (h : ErrorCause k (decode w) s) :
    step s = .next (raiseError k (setPending rest s)) := by
  rw [step_of_cons hp, perform_command, performCommand_of_errorCause ((errorCause_setPending k _ rest s).mpr h)]

/-- The three causes of R201 are all the words DECODE rejects. -/
theorem exists_decode_error {w : Word}
    (h : reservedField w ≠ 0 ∨ opField w ∉ ([1, 2, 3, 4] : List (BitVec 4)) ∨
      (opField w ∈ ([1, 3, 4] : List (BitVec 4)) ∧ countField w ≠ 0)) : ∃ r, decode w = .error r := by
  cases hw : decode w with
  | error r => exact ⟨r, rfl⟩
  | ok i =>
    obtain ⟨hr, ⟨-, ho, hn⟩ | ⟨-, ho⟩ | ⟨-, ho, hn⟩ | ⟨-, ho, hn⟩⟩ := decode_ok_fields hw <;> simp_all

/-- What a command does to the error flags: INIT clears them, an error raises its own, and the rest leave them alone. -/
theorem afterCommand_errorFlag_cases (i : Instr) (s : State) :
    (i = .init ∧ ∀ k, errorFlag k (afterCommand i s) = false) ∨
    (∃ k, ErrorCause k (.ok i) s ∧ afterCommand i s = raiseError k s) ∨
    (∀ k, errorFlag k (afterCommand i s) = errorFlag k s) := by
  rcases afterCommand_cases i s with ⟨hi, h⟩ | ⟨hi, hdone, h⟩ | ⟨rfl, hdone, hvalid, h⟩ | ⟨bs, -, -, h⟩ |
    ⟨bs, -, -, -, -, h⟩ | ⟨-, -, h⟩ <;> rw [h]
  · exact .inl ⟨hi, fun k => errorFlag_beginMessage k s⟩
  · exact .inr (.inl ⟨.seq, ⟨i, rfl, hi, hdone⟩, rfl⟩)
  · exact .inr (.inl ⟨.enc, ⟨rfl, hdone, hvalid⟩, rfl⟩)
  · exact .inr (.inr (appendMsgs_sameAside bs s).errorFlag_eq)
  · exact .inr (.inr (appendMsgs_sameAside bs s).errorFlag_eq)
  · exact .inr (.inr fun k => (errorFlag_setDone k _).trans ((padMessage_sameAside s).errorFlag_eq k))

/-- What an event does to the error flags (R205). -/
theorem perform_errorFlag_cases {e : Event} {s t : State} (h : perform e s = .next t) :
    ((e = .reset ∨ ∃ w, e = .write 0x00 4 w ∧ decode w = .ok .init) ∧ ∀ k, errorFlag k t = false) ∨
    (∃ w k, e = .write 0x00 4 w ∧ ErrorCause k (decode w) s ∧ t = raiseError k s) ∨
    (∀ k, errorFlag k t = errorFlag k s) := by
  rcases perform_cases h with ⟨rfl, rfl⟩ | ⟨off, -, -, rfl⟩ | ⟨w, i, rfl, hw, rfl⟩ | ⟨w, r, rfl, hw, rfl⟩ | ⟨v, -, rfl⟩ |
    ⟨off, v, -, -, -, -, rfl⟩
  · exact .inl ⟨.inl rfl, fun k => errorFlag_hardReset k s⟩
  · exact .inr (.inr fun k => errorFlag_recordRead k _ s)
  · rcases afterCommand_errorFlag_cases i s with ⟨rfl, hclear⟩ | ⟨k, hcause, heq⟩ | hkept
    · exact .inl ⟨.inr ⟨w, rfl, hw⟩, hclear⟩
    · exact .inr (.inl ⟨w, k, rfl, hw ▸ hcause, heq⟩)
    · exact .inr (.inr hkept)
  · exact .inr (.inl ⟨w, .cmd, rfl, ⟨r, hw⟩, rfl⟩)
  · exact .inr (.inr fun k => errorFlag_setData k v s)
  · exact .inr (.inr fun _ => rfl)

/-- Only the error raised can be the one whose flag rises. -/
theorem eq_of_errorFlag_raiseError {j k : ErrorKind} {s : State} (h : errorFlag k s = false)
    (ht : errorFlag k (raiseError j s) = true) : k = j := by
  by_contra hne
  rw [errorFlag_raiseError_other hne, h] at ht
  exact Bool.false_ne_true ht

/-- A command that raises a flag meets its condition. -/
theorem errorCause_of_afterCommand_rise {i : Instr} {s : State} {k : ErrorKind} (h : errorFlag k s = false)
    (ht : errorFlag k (afterCommand i s) = true) : ErrorCause k (.ok i) s := by
  rcases afterCommand_errorFlag_cases i s with ⟨-, hclear⟩ | ⟨j, hcause, heq⟩ | hkept
  · simp [hclear] at ht
  · rw [heq] at ht
    rwa [eq_of_errorFlag_raiseError h ht]
  · simp [hkept, h] at ht

/-- An event that raises a flag is a CMD write that meets its condition. -/
theorem errorCause_of_perform_rise {e : Event} {s t : State} {k : ErrorKind} (he : perform e s = .next t)
    (h : errorFlag k s = false) (ht : errorFlag k t = true) :
    ∃ w, e = .write 0x00 4 w ∧ ErrorCause k (decode w) s := by
  rcases perform_errorFlag_cases he with ⟨-, hclear⟩ | ⟨w, j, rfl, hcause, rfl⟩ | hkept
  · simp [hclear] at ht
  · exact ⟨w, rfl, eq_of_errorFlag_raiseError h ht ▸ hcause⟩
  · simp [hkept, h] at ht

/-- A step that raises a flag takes a CMD write that meets its condition (R205). -/
theorem errorCause_of_step_rise {s t : State} {k : ErrorKind} (hstep : step s = .next t)
    (h : errorFlag k s = false) (ht : errorFlag k t = true) :
    ∃ w rest, s.pending = .write 0x00 4 w :: rest ∧ ErrorCause k (decode w) s := by
  rcases step_cases hstep with ⟨-, rfl⟩ | ⟨e, rest, hp, he⟩
  · simp [h] at ht
  · obtain ⟨w, rfl, hcause⟩ := errorCause_of_perform_rise he ((errorFlag_setPending k rest s).trans h) ht
    exact ⟨w, rest, hp, (errorCause_setPending k _ rest s).mp hcause⟩

/-- An event that is neither a reset nor INIT keeps a flag that is set (R205). -/
theorem perform_keeps_errorFlag {e : Event} {s t : State} {k : ErrorKind} (he : perform e s = .next t)
    (hreset : e ≠ .reset) (hinit : ∀ w, e = .write 0x00 4 w → decode w ≠ .ok .init) (h : errorFlag k s = true) :
    errorFlag k t = true := by
  rcases perform_errorFlag_cases he with ⟨heq | ⟨w, heq, hw⟩, -⟩ | ⟨w, j, -, -, rfl⟩ | hkept
  · exact absurd heq hreset
  · exact absurd hw (hinit w heq)
  · exact errorFlag_raiseError_mono k j s h
  · rw [hkept, h]

/-- STATUS[3:0] is 1 exactly when DONE is the one flag set (R36, R207). -/
theorem digestTrusted_iff (s : State) : digestTrusted s = true ↔ s.DONE = true ∧ s.noError := by
  have hlow : digestTrusted s = true ↔ (statusWord s).toNat % 16 = 1 := by
    rw [digestTrusted, beq_iff_eq, ← BitVec.toNat_inj, BitVec.extractLsb'_toNat]
    rfl
  have hdone := s.DONE.toNat_lt
  have hcmd := s.ERR_CMD.toNat_lt
  have henc := s.ERR_ENC.toNat_lt
  have hseq := s.ERR_SEQ.toNat_lt
  rw [hlow, statusWord_toNat, State.noError, ← Bool.toNat_eq_one, ← Bool.toNat_eq_zero, ← Bool.toNat_eq_zero,
    ← Bool.toNat_eq_zero]
  omega

end Sys2Proof.Machine
end

section
/-! The computation apart from the error flags (R206): what every command does to it depends on nothing else. -/

namespace Sys2Proof.Machine

/-- Two states with the same computation under way: all that the commands work on and no error flag. -/
structure SameComputation (s t : State) : Prop where
  acc : t.S = s.S
  fill : t.FILL = s.FILL
  len : t.LEN = s.LEN
  done : t.DONE = s.DONE
  data : t.DATA = s.DATA
  bytes : currentBytes t = currentBytes s

namespace SameComputation

variable {s t : State}

theorem raiseError (h : SameComputation s t) (k : ErrorKind) : SameComputation (raiseError k s) (raiseError k t) where
  acc := by simp [h.acc]
  fill := by simp [h.fill]
  len := by simp [h.len]
  done := by simp [h.done]
  data := by simp [h.data]
  bytes := by simpa [currentBytes] using h.bytes

theorem beginMessage (h : SameComputation s t) : SameComputation (beginMessage s) (beginMessage t) where
  acc := rfl
  fill := rfl
  len := rfl
  done := rfl
  data := h.data
  bytes := by rw [currentBytes_of_FILL_zero rfl, currentBytes_of_FILL_zero rfl]

theorem setDone (h : SameComputation s t) : SameComputation (setDone s) (setDone t) := { h with done := rfl }

theorem setLength (h : SameComputation s t) (n : Length) : SameComputation (setLength n s) (setLength n t) :=
  { h with len := rfl }

/-- The blocks that appended bytes complete and the bytes they leave are those of the current bytes and theirs. -/
theorem appendRaws (h : SameComputation s t) (bs : List Byte) :
    SameComputation (appendRaws bs s) (appendRaws bs t) := by
  have haside := appendRaws_sameAside bs s
  have haside' := appendRaws_sameAside bs t
  obtain ⟨hS, hbytes⟩ := appendRaws_chain bs s
  obtain ⟨hS', hbytes'⟩ := appendRaws_chain bs t
  exact
    { acc := by rw [hS, hS', h.acc, h.fill, h.bytes]
      fill := by apply Fin.ext; rw [appendRaws_FILL, appendRaws_FILL, h.fill]
      len := by rw [appendRaws_LEN, appendRaws_LEN, h.len]
      done := by rw [haside.done, haside'.done, h.done]
      data := by rw [haside.data, haside'.data, h.data]
      bytes := by rw [hbytes, hbytes', h.fill, h.bytes] }

theorem appendMsgs (h : SameComputation s t) (bs : List Byte) :
    SameComputation (appendMsgs bs s) (appendMsgs bs t) := by
  rw [appendMsgs_eq, appendMsgs_eq, h.len]
  exact (h.appendRaws bs).setLength _

theorem padMessage (h : SameComputation s t) : SameComputation (padMessage s) (padMessage t) := by
  rw [padMessage_eq, padMessage_eq, h.fill, h.len]
  exact h.appendRaws _

theorem absorbCodePoint (h : SameComputation s t) :
    SameComputation (absorbCodePoint s) (absorbCodePoint t) := by
  simp only [Machine.absorbCodePoint, h.data]
  cases encodeCodePoint s.DATA with
  | some bs => exact h.appendMsgs bs
  | none => exact h.raiseError .enc

theorem whileAccepting (h : SameComputation s t) {act : State → State} (hact : SameComputation (act s) (act t)) :
    SameComputation (whileAccepting act s) (whileAccepting act t) := by
  cases hdone : s.DONE with
  | true =>
    rw [whileAccepting_done act hdone, whileAccepting_done act (h.done.trans hdone)]
    exact h.raiseError .seq
  | false =>
    rw [whileAccepting_accepting act hdone, whileAccepting_accepting act (h.done.trans hdone)]
    exact hact

theorem afterCommand (h : SameComputation s t) (i : Instr) : SameComputation (afterCommand i s) (afterCommand i t) := by
  cases i <;> simp only [Machine.afterCommand]
  case init => exact h.beginMessage
  case absorb c => exact h.whileAccepting (by rw [h.data]; exact h.appendMsgs _)
  case absorbCp => exact h.whileAccepting h.absorbCodePoint
  case final => exact h.whileAccepting h.padMessage.setDone

theorem getElem_BUF_eq (h : SameComputation s t) {j : Fin 64} (hj : j < s.FILL) : t.BUF[j] = s.BUF[j] := by
  rw [getElem_BUF_eq_currentBytes_getD hj, getElem_BUF_eq_currentBytes_getD (h.fill ▸ hj), h.bytes]

end SameComputation

end Sys2Proof.Machine
end

section
/-! What a turn of the platform does to its instances (R60, R214, R230). -/

namespace Sys2Proof.Machine

/-- An access that is performed replaces the block of one instance, whose window holds the address. -/
theorem Platform.serve_slots {p p' : Platform} {k : Nat} {m : Master} {a : BusAccess} {queue : List BusAccess}
    (h : p.serve k m a queue = .next p') :
    ∃ i sl b, p.slots[i]? = some sl ∧ inWindow a.addr sl = true ∧ p'.slots = p.slots.set i ⟨sl.base, b⟩ := by
  rw [Platform.serve] at h
  cases hroute : p.slots.findIdx? (inWindow a.addr) with
  | none => simp [hroute] at h
  | some i =>
    obtain ⟨hlt, hin, -⟩ := List.findIdx?_eq_some_iff_getElem.mp hroute
    simp only [hroute, List.getElem?_eq_getElem hlt, Platform.serveAt] at h
    cases hb : perform a.toEvent p.slots[i].block with
    | next b =>
      rw [hb] at h
      cases h
      exact ⟨i, _, b, List.getElem?_eq_getElem hlt, hin, rfl⟩
    | fault f => cases f
    | refused r =>
      rw [hb] at h
      cases h

theorem Platform.step_of_access_turn {p : Platform} {k : Nat} {rest : List Turn} {m : Master} {a : BusAccess}
    {queue : List BusAccess} (hturn : p.schedule = .master k :: rest) (hm : p.masters[k]? = some m)
    (hqueue : m.queue = a :: queue) : p.step = Platform.serve { p with schedule := rest } k m a queue := by
  simp only [Platform.step, hturn, Platform.masterTurn, hm, hqueue]

theorem Platform.step_of_reset_turn {p : Platform} {i : Nat} {rest : List Turn} (hturn : p.schedule = .reset i :: rest) :
    p.step = .next (Platform.resetInstance { p with schedule := rest } i) := by
  simp only [Platform.step, hturn]

/-- Modifying an element leaves alone what the modification keeps of it. -/
theorem map_modify_of_apply_eq {α β : Type} {f : α → α} {g : α → β} (h : ∀ a, g (f a) = g a) (l : List α) (i : Nat) :
    (l.modify i f).map g = l.map g := by
  apply List.ext_getElem?
  intro j
  rw [List.getElem?_map, List.getElem?_map, List.getElem?_modify]
  cases l[j]? with
  | none => rfl
  | some a => by_cases hij : i = j <;> simp [hij, h]

theorem Platform.resetInstance_config (p : Platform) (i : Nat) : (p.resetInstance i).config = p.config :=
  congrArg Config.mk (map_modify_of_apply_eq (by intro; rfl) p.slots i)

theorem Platform.serve_config {p p' : Platform} {k : Nat} {m : Master} {a : BusAccess} {queue : List BusAccess}
    (h : p.serve k m a queue = .next p') : p'.config = p.config := by
  obtain ⟨i, sl, b, hsl, -, hslots⟩ := Platform.serve_slots h
  obtain ⟨hlt, rfl⟩ := List.getElem?_eq_some_iff.mp hsl
  rw [Platform.config, hslots, List.map_set, ← List.getElem_map Slot.base (h := by simpa using hlt),
    List.set_getElem_self, Platform.config]

theorem Platform.masterTurn_config {p p' : Platform} {k : Nat} (h : p.masterTurn k = .next p') :
    p'.config = p.config := by
  rw [Platform.masterTurn] at h
  split at h
  · cases h
    rfl
  · split at h
    · cases h
      rfl
    · exact Platform.serve_config h

/-- No turn moves an instance or changes how many there are (R8, R214). -/
theorem Platform.step_config {p p' : Platform} (h : p.step = .next p') : p'.config = p.config := by
  rw [Platform.step] at h
  split at h
  · cases h
    rfl
  · next rest _ => exact Platform.masterTurn_config (p := { p with schedule := rest }) h
  · cases h
    exact Platform.resetInstance_config _ _

end Sys2Proof.Machine
end

section
/-! The statements of 60_exceptions.md. -/

namespace Sys2Proof.Proofs

open Sys2Proof.Machine

/-- Settles O20: a surrogate or a value above 0x10FFFF is the condition of ErrEnc, and only ABSORB_CP has that condition. -/
theorem rejectedCodePointOnlySetsErrEnc : Obligations.RejectedCodePointOnlySetsErrEnc := by
  refine ⟨fun s hdone hcp => ?_, fun i s t hexec h ht => ?_⟩
  · exact exec_of_errorCause (k := .enc) ⟨rfl, hdone, (validCodePoint_eq_false_iff s.DATA).mpr hcp⟩
  · rw [exec_eq] at hexec
    cases hexec
    obtain ⟨hi, -, -⟩ := errorCause_of_afterCommand_rise (k := .enc) h ht
    exact Except.ok.inj hi

/-- Settles O23: such a word does not decode (`exists_decode_error`), which is the condition of ErrCmd. -/
theorem illegalWordOnlySetsErrCmd : Obligations.IllegalWordOnlySetsErrCmd :=
  fun _ _ _ hp h => step_of_errorCause (k := .cmd) hp (exists_decode_error h)

/-- Settles O25: flags that rise have their conditions met, and the conditions exclude each other. -/
theorem oneErrorFlagPerCommand : Obligations.OneErrorFlagPerCommand := by
  refine fun s w rest hp => ⟨fun t j k hstep hj hjt hk hkt => ?_, fun r hw => ?_, fun i hw hi hdone => ?_,
    fun hw hdone hvalid => ?_⟩
  · obtain ⟨w', rest', hp', hcause⟩ := errorCause_of_step_rise hstep hj hjt
    obtain ⟨w'', rest'', hp'', hcause'⟩ := errorCause_of_step_rise hstep hk hkt
    rw [hp'] at hp''
    cases hp''
    exact hcause.unique hcause'
  · exact step_of_errorCause (k := .cmd) hp ⟨r, hw⟩
  · exact step_of_errorCause (k := .seq) hp ⟨i, hw, hi, hdone⟩
  · exact step_of_errorCause (k := .enc) hp ⟨hw, hdone, hvalid⟩

/-- Settles O26: a step that raises a flag meets its condition (`errorCause_of_step_rise`), and an event that is neither a
reset nor INIT clears none (`perform_keeps_errorFlag`). -/
theorem errorFlagsAreSticky : Obligations.ErrorFlagsAreSticky := by
  refine fun s t hstep => ⟨fun h ht => ?_, fun h ht => ?_, fun h ht => ?_, fun hreset hinit k h => ?_⟩
  · obtain ⟨w, rest, hp, r, hw⟩ := errorCause_of_step_rise (k := .cmd) hstep h ht
    exact ⟨w, rest, r, hp, hw⟩
  · obtain ⟨w, rest, hp, i, hw, hi, hdone⟩ := errorCause_of_step_rise (k := .seq) hstep h ht
    exact ⟨w, rest, i, hp, hw, hi, hdone⟩
  · obtain ⟨w, rest, hp, hw, hdone, hvalid⟩ := errorCause_of_step_rise (k := .enc) hstep h ht
    exact ⟨w, rest, hp, hw, hdone, (validCodePoint_eq_false_iff s.DATA).mp hvalid⟩
  · rcases step_cases hstep with ⟨-, rfl⟩ | ⟨e, rest, hp, he⟩
    · exact h
    · exact perform_keeps_errorFlag he (fun heq => hreset rest (heq ▸ hp)) (fun w heq => hinit w rest (heq ▸ hp))
        ((errorFlag_setPending k rest s).trans h)

/-- Settles O27: the two states have the same computation under way, and every command keeps it the same. -/
theorem errorsDoNotStopTheEngine : Obligations.ErrorsDoNotStopTheEngine := by
  intro i s c e q
  have hstart : SameComputation s { s with ERR_CMD := c, ERR_ENC := e, ERR_SEQ := q } := ⟨rfl, rfl, rfl, rfl, rfl, rfl⟩
  have h := hstart.afterCommand i
  exact ⟨_, _, exec_eq i s, exec_eq i _, h.acc, h.fill, h.len, h.done, h.data, fun _ hj => h.getElem_BUF_eq hj⟩

/-- Settles O48: a turn replaces the block of one instance at most, at its base: the one whose window holds the address, or
the one reset. -/
theorem instancesAreIsolated : Obligations.InstancesAreIsolated := by
  intro p p' h
  refine ⟨Platform.step_config h, fun k rest m a queue hturn hm hqueue j sl hj hout => ?_, fun i rest hturn j hj => ?_⟩
  · rw [Platform.step_of_access_turn hturn hm hqueue] at h
    obtain ⟨i, sl', b, hi, hin, hslots⟩ := Platform.serve_slots h
    have hne : i ≠ j := by
      rintro rfl
      have hsame : sl = sl' := Option.some.inj (hj.symm.trans hi)
      rw [← hsame, hout] at hin
      exact Bool.false_ne_true hin
    rw [hslots, List.getElem?_set_ne hne, hj]
  · rw [Platform.step_of_reset_turn hturn] at h
    cases h
    exact List.getElem?_modify_ne _ _ hj.symm

/-- Settles O16: `exec` is one next state for each command. -/
theorem everyCommandCompletes : Obligations.EveryCommandCompletes := fun i s => ⟨_, exec_eq i s⟩

/-- Settles O24: DONE = 1 is the condition of ErrSeq for every command but INIT, and INIT clears its flag. -/
theorem doneStateRaisesErrSeq : Obligations.DoneStateRaisesErrSeq := by
  refine ⟨fun s i hdone hi => exec_of_errorCause (k := .seq) ⟨i, rfl, hi, hdone⟩, fun s t h => ?_⟩
  rw [exec_eq] at h
  cases h
  rfl

/-- Settles O29: STATUS[3:0] is the four flags, DONE lowest, and STATUS is what a read at 0x08 returns. -/
theorem statusTellsTrustedDigest : Obligations.StatusTellsTrustedDigest :=
  fun s => ⟨digestTrusted_iff s, beq_iff_eq⟩

end Sys2Proof.Proofs
end

section
/-! The statements of 70_reset_and_hazards.md. -/

namespace Sys2Proof.Proofs

open Sys2Proof.Machine

/-- Settles O15: the step is the reset event, which writes the constants INIT writes and clears DATA besides. -/
theorem resetEventLeavesInitState : Obligations.ResetEventLeavesInitState := by
  intro s rest hp
  have hstep : step s = .next (hardReset (setPending rest s)) := step_of_cons hp
  exact ⟨_, _, hstep, exec_eq .init s, rfl, rfl, rfl, rfl, rfl, rfl, rfl, rfl, rfl, rfl, rfl, ⟨rfl, rfl, rfl⟩,
    rfl, rfl, rfl⟩

/-- Settles O13: the elements by the definition of the reset state, and STATUS and the halves of LEN as their zeros laid
out in words. -/
theorem resetValues : Obligations.ResetValues := by
  have hstatus : readReg .status State.reset = 0 := by decide
  have hlenLo : readReg .lenLo State.reset = 0 := by decide
  have hlenHi : readReg .lenHi State.reset = 0 := by decide
  exact ⟨rfl, rfl, rfl, rfl, rfl, rfl, rfl, rfl, hstatus, hlenLo, hlenHi, rfl⟩

/-- Settles O46: the block accepts at reset, with LEN and FILL both 0. -/
theorem resetIsLengthConsistent : Obligations.ResetIsLengthConsistent :=
  (State.consistent_iff_of_accepting rfl).mpr rfl

end Sys2Proof.Proofs
end
